-- ==== Sys2Proof/Word.lean ====
section
/-!
DEFINITION. The plainest data of the core: bits, bit sequences, the 32-bit command word, the operand of LLOAD,
the three register names, and a record with one entry for each register (spec/00_scope.md R9, spec/10_state.md R21).
-/

namespace Sys2Proof

/-- A bit; `false` is 0 and `true` is 1 (R9). -/
abbrev Bit := Bool

/-- A bit sequence `v`: the head is element `v<0>`, the leftmost character of the bit string (R9). -/
abbrev Bits := List Bit

/-- One command word `CW[31:0]`, presented whole (30_encoding.md R60). -/
abbrev CommandWord := BitVec 32

/-- The operand that an LLOAD word carries (30_encoding.md R63). -/
inductive LoadOperand where
  /-- a bit sequence, of any length at the level of commands (40_lfsr.md R85) -/
  | vector (v : Bits)
  /-- the fields of a word with `len` 0 or above 16: "no vector is assembled, because the command then always
  faults with ConfigError" (R63); they are kept so that the word can be written again (log 13) -/
  | unassembled (len : BitVec 5) (data : BitVec 16)
deriving DecidableEq, Repr

/-- The three registers `Reg` = G0 (generator0), G1 (generator1), CT (control) (10_state.md R21). -/
inductive Reg where
  | g0
  | g1
  | ct
deriving DecidableEq, Repr

/-- One value for each register: the `Reg -> α` of the spec as plain data (10_state.md R20). -/
structure PerReg (α : Type) where
  g0 : α
  g1 : α
  ct : α
deriving DecidableEq, Repr

namespace PerReg

/-- The entry of register `r`. -/
def get {α : Type} (p : PerReg α) : Reg → α
  | .g0 => p.g0
  | .g1 => p.g1
  | .ct => p.ct

/-- Overwrite the entry of register `r`; the other two stay ("A write to one register never changes
another", 10_state.md R22). -/
def set {α : Type} (p : PerReg α) (r : Reg) (v : α) : PerReg α :=
  match r with
  | .g0 => { p with g0 := v }
  | .g1 => { p with g1 := v }
  | .ct => { p with ct := v }

/-- The record whose entry at `r` is `f r`. -/
def ofFn {α : Type} (f : Reg → α) : PerReg α := ⟨f .g0, f .g1, f .ct⟩

end PerReg

end Sys2Proof
end

