-- ==== Sys2Proof/Syntax.lean ====
section
/-!
DEFINITION. The twelve commands, one constructor for each row of spec/opcode_table.json
(spec/00_scope.md R13, spec/30_encoding.md R66). Operands are the assembled ones of R62 to R65.
-/

namespace Sys2Proof

/-- A command with its operands (00_scope.md R13). A vector operand is a bit sequence of any length, a
count is a natural number; `Instr.wf` says which the 32-bit word can carry. -/
inductive Instr where
  /-- `LSTEP r` (40_lfsr.md R83). -/
  | lstep (r : Reg)
  /-- `LRESET r` (40_lfsr.md R84). -/
  | lreset (r : Reg)
  /-- `LLOAD r, v` (40_lfsr.md R85). -/
  | lload (r : Reg) (v : LoadOperand)
  /-- `LREAD r` (40_lfsr.md R86). -/
  | lread (r : Reg)
  /-- `COMBINE b0, b1, c` (41_combiner.md R101). -/
  | combine (b0 b1 c : Bit)
  /-- `GSTEP` (42_generator.md R111). -/
  | gstep
  /-- `GENERATE n` (42_generator.md R112). -/
  | generate (n : Nat)
  /-- `GRESET` (42_generator.md R113). -/
  | greset
  /-- `INCLR` (43_cipher.md R131). -/
  | inclr
  /-- `INLD v` (43_cipher.md R132). -/
  | inld (v : Bits)
  /-- `APPLY` (43_cipher.md R133). -/
  | apply
  /-- `CRYPT n` (43_cipher.md R134). -/
  | crypt (n : Nat)
deriving DecidableEq, Repr

end Sys2Proof
end

