-- ==== Sys2Proof/Machine/Operands.lean ====
section
/-!
DEFINITION. Operand assembly: packed words (spec/00_scope.md R10), the register numbers (spec/10_state.md
R21, spec/30_encoding.md R62), and the tap mask of a tap set (spec/10_state.md R24).
-/

namespace Sys2Proof.Machine

/-- `pk(v)`, the sum over `i` of `v<i> * 2^(W-1-i)`: element 0 is the most significant bit (R10). -/
def pk : Bits → Nat
  | [] => 0
  | b :: v => b.toNat * 2 ^ v.length + pk v

/-- `unpk_n(x)`, the sequence `u` of length `n` with `u<i> = x[n-1-i]` (R10). -/
def unpk : Nat → Nat → Bits
  | 0, _ => []
  | n + 1, x => x.testBit n :: unpk n x

/-- The register a `sel` field selects; `11` is reserved (R62). -/
def selectReg (sel : BitVec 2) : Option Reg :=
  match sel.toNat with
  | 0 => some .g0
  | 1 => some .g1
  | 2 => some .ct
  | _ => none

/-- The number of a register in the `sel` field (R21, R62). -/
def regNumber : Reg → BitVec 2
  | .g0 => 0
  | .g1 => 1
  | .ct => 2

/-- The tap mask of a tap set, as a sequence of `W` elements whose element `i` is 1 exactly when `i` is in
the set; its packing is `tm(T)`, with `tm[W-1-i] = 1` exactly when `i` is in `T` (R24). -/
def tapMask (width : Nat) (taps : List Nat) : Bits :=
  (List.range width).map fun i => taps.contains i

end Sys2Proof.Machine
end

