-- ==== Sys2Proof/WellFormed.lean ====
section
/-!
DEFINITION. The commands that the 32-bit encoding can carry (spec/30_encoding.md R63, R64, R72).
-/

namespace Sys2Proof

/-- A vector operand that a word can carry: 1 to 16 elements, since `len` says how many of the 16 `data` bits
hold it (R63). -/
def vectorOk (v : Bits) : Bool :=
  decide (1 ≤ v.length) && decide (v.length ≤ 16)

/-- `data >> min(len, 16) = 0`: the `data` bits at positions `len` and above are 0 (R63). -/
def dataBelow (len : BitVec 5) (data : BitVec 16) : Bool := data >>> min len.toNat 16 == 0

/-- `len` is one for which a vector is assembled, 1 to 16 (R63). -/
def assembles (len : BitVec 5) : Bool := len.toNat != 0 && decide (len.toNat ≤ 16)

/-- An operand of LLOAD that a word can carry: "every `len` from 0 to 31 decodes" (R63). -/
def loadOperandOk : LoadOperand → Bool
  | .vector v => vectorOk v
  | .unassembled len data => !assembles len && dataBelow len data

/-- A count operand: an unsigned 16-bit number (R64). -/
def countOk (n : Nat) : Bool := decide (n < 2 ^ 16)

/-- The commands that are the meaning of some command word. -/
def Instr.wf : Instr → Bool
  | .lstep _ => true
  | .lreset _ => true
  | .lload _ v => loadOperandOk v
  | .lread _ => true
  | .combine _ _ _ => true
  | .gstep => true
  | .generate n => countOk n
  | .greset => true
  | .inclr => true
  | .inld v => vectorOk v
  | .apply => true
  | .crypt n => countOk n

end Sys2Proof
end

