-- ==== Sys2Proof/Decode.lean ====
section
/-!
DEFINITION. The command word: its five fields, the decoder (total, rejecting by name), and the encoder
(spec/30_encoding.md R60 to R67), with the rows of the opcode map as a table of match and mask.
-/

namespace Sys2Proof

/-- The five fields of a command word (R60). -/
structure Fields where
  /-- `CW[31:28]` -/
  op : BitVec 4
  /-- `CW[27:26]` -/
  sel : BitVec 2
  /-- `CW[25:21]` -/
  len : BitVec 5
  /-- `CW[20:16]` -/
  zero : BitVec 5
  /-- `CW[15:0]` -/
  data : BitVec 16
deriving DecidableEq, Repr

/-- Why a word decodes to IllegalCommand (R67); every reason raises the same fault (60_exceptions.md R153). -/
inductive Reject where
  /-- Step 1: `op` is 0000, 1101, 1110 or 1111. -/
  | reservedOpcode
  /-- Step 1: a must-be-zero bit is 1. -/
  | mustBeZero
  /-- Step 2: `sel = 11` in a row with a register operand. -/
  | reservedSelect
  /-- Step 3: `INLD` with `len` outside 1 to 16. -/
  | inputLength
  /-- Step 4: a `data` bit at or above `len` is 1. -/
  | dataAboveLength
deriving DecidableEq, Repr

/-- The fields of a word (R60). -/
def splitWord (w : CommandWord) : Fields where
  op := w.extractLsb' 28 4
  sel := w.extractLsb' 26 2
  len := w.extractLsb' 21 5
  zero := w.extractLsb' 16 5
  data := w.extractLsb' 0 16

/-- The word with these fields (R60). -/
def joinWord (f : Fields) : CommandWord := f.op ++ f.sel ++ f.len ++ f.zero ++ f.data

/-- `sel` and `len` must be zero "in commands without" such an operand, `zero` always (R60). -/
def Fields.selZero (f : Fields) : Bool := f.sel == 0 && f.zero == 0

/-- `len` and `zero` are zero. -/
def Fields.lenZero (f : Fields) : Bool := f.len == 0 && f.zero == 0

/-- The `data` bits at positions `len` and above are 0: `data >> min(len, 16) = 0` (R63). -/
def Fields.dataFits (f : Fields) : Bool := dataBelow f.len f.data

/-- The vector operand `v = unpk_len(data[len-1:0])`, for `len` 1 to 16 (R63). -/
def Fields.vector (f : Fields) : Bits := Machine.unpk f.len.toNat f.data.toNat

/-- The operand of LLOAD: with `len` 0 or above 16 no vector is assembled (R63). -/
def Fields.loadOperand (f : Fields) : LoadOperand :=
  if assembles f.len then .vector f.vector else .unassembled f.len f.data

/-- Rows whose only operand is `sel`: LSTEP, LRESET, LREAD. -/
def decodeReg (f : Fields) (mk : Reg → Instr) : Except Reject Instr :=
  if f.lenZero && f.data == 0 then
    match Machine.selectReg f.sel with
    | some r => .ok (mk r)
    | none => .error .reservedSelect
  else .error .mustBeZero

/-- Rows without an operand: GSTEP, GRESET, INCLR, APPLY. -/
def decodePlain (f : Fields) (i : Instr) : Except Reject Instr :=
  if f.selZero && f.lenZero && f.data == 0 then .ok i else .error .mustBeZero

/-- Rows whose operand is a count `n = data`, unsigned (R64): GENERATE, CRYPT. -/
def decodeCount (f : Fields) (mk : Nat → Instr) : Except Reject Instr :=
  if f.selZero && f.lenZero then .ok (mk f.data.toNat) else .error .mustBeZero

/-- LLOAD: `sel`, `len`, `data`; "every `len` from 0 to 31 decodes" (R63). -/
def decodeLoad (f : Fields) : Except Reject Instr :=
  if f.zero == 0 then
    match Machine.selectReg f.sel with
    | some r => if f.dataFits then .ok (.lload r f.loadOperand) else .error .dataAboveLength
    | none => .error .reservedSelect
  else .error .mustBeZero

/-- COMBINE: `bit0 = data[2]`, `bit1 = data[1]`, `controlBit = data[0]`; `data[15:3]` must be 0 (R65). -/
def decodeCombine (f : Fields) : Except Reject Instr :=
  if f.selZero && f.lenZero && f.data >>> 3 == 0 then
    .ok (.combine (f.data.getLsbD 2) (f.data.getLsbD 1) (f.data.getLsbD 0))
  else .error .mustBeZero

/-- INLD: `len`, `data`; `len` must be 1 to 16 (R63). -/
def decodeInput (f : Fields) : Except Reject Instr :=
  if f.selZero then
    if assembles f.len then
      if f.dataFits then .ok (.inld f.vector) else .error .dataAboveLength
    else .error .inputLength
  else .error .mustBeZero

/-- The command of a word, or why it is illegal: total, and depending "on nothing but the word" (R67). -/
def decode (w : CommandWord) : Except Reject Instr :=
  let f := splitWord w
  match f.op.toNat with
  | 1 => decodeReg f .lstep
  | 2 => decodeReg f .lreset
  | 3 => decodeLoad f
  | 4 => decodeReg f .lread
  | 5 => decodeCombine f
  | 6 => decodePlain f .gstep
  | 7 => decodeCount f .generate
  | 8 => decodePlain f .greset
  | 9 => decodePlain f .inclr
  | 10 => decodeInput f
  | 11 => decodePlain f .apply
  | 12 => decodeCount f .crypt
  | _ => .error .reservedOpcode

/-- The opcode of a command (R66). -/
def Instr.opcode : Instr → BitVec 4
  | .lstep _ => 1
  | .lreset _ => 2
  | .lload _ _ => 3
  | .lread _ => 4
  | .combine _ _ _ => 5
  | .gstep => 6
  | .generate _ => 7
  | .greset => 8
  | .inclr => 9
  | .inld _ => 10
  | .apply => 11
  | .crypt _ => 12

/-- The `len` field of an operand of LLOAD. -/
def LoadOperand.lenField : LoadOperand → BitVec 5
  | .vector v => BitVec.ofNat 5 v.length
  | .unassembled len _ => len

/-- The `data` field of an operand of LLOAD. -/
def LoadOperand.dataField : LoadOperand → BitVec 16
  | .vector v => BitVec.ofNat 16 (Machine.pk v)
  | .unassembled _ data => data

/-- The `sel` field a command is written with (R62). -/
def Instr.selField : Instr → BitVec 2
  | .lstep r => Machine.regNumber r
  | .lreset r => Machine.regNumber r
  | .lload r _ => Machine.regNumber r
  | .lread r => Machine.regNumber r
  | .combine _ _ _ => 0
  | .gstep => 0
  | .generate _ => 0
  | .greset => 0
  | .inclr => 0
  | .inld _ => 0
  | .apply => 0
  | .crypt _ => 0

/-- The `len` field a command is written with: the length of a vector operand (R63). -/
def Instr.lenField : Instr → BitVec 5
  | .lstep _ => 0
  | .lreset _ => 0
  | .lload _ v => v.lenField
  | .lread _ => 0
  | .combine _ _ _ => 0
  | .gstep => 0
  | .generate _ => 0
  | .greset => 0
  | .inclr => 0
  | .inld v => BitVec.ofNat 5 v.length
  | .apply => 0
  | .crypt _ => 0

/-- The `data` field a command is written with (R63, R64, R65). -/
def Instr.dataField : Instr → BitVec 16
  | .lstep _ => 0
  | .lreset _ => 0
  | .lload _ v => v.dataField
  | .lread _ => 0
  | .combine b0 b1 c => BitVec.ofNat 16 (Machine.pk [b0, b1, c])
  | .gstep => 0
  | .generate n => BitVec.ofNat 16 n
  | .greset => 0
  | .inclr => 0
  | .inld v => BitVec.ofNat 16 (Machine.pk v)
  | .apply => 0
  | .crypt n => BitVec.ofNat 16 n

/-- The word of a command (R60, R66). -/
def encode (i : Instr) : CommandWord := joinWord ⟨i.opcode, i.selField, i.lenField, 0, i.dataField⟩

/-- A row of the opcode map (R66): its opcode, its `match` and `mask`, and which of the further conditions
of R67 it carries. -/
structure OpcodeRow where
  opcode : BitVec 4
  pattern : CommandWord
  mask : CommandWord
  /-- the row has a `sel` operand (step 2 of R67) -/
  hasSel : Bool
  /-- the row is INLD (step 3 of R67) -/
  isInput : Bool
  /-- the row has a vector operand (step 4 of R67) -/
  hasVector : Bool
deriving DecidableEq, Repr

/-- The twelve rows of the opcode map, as R66 writes their `match` and `mask`. -/
def opcodeRows : List OpcodeRow :=
  [ ⟨1, 0x10000000, 0xF3FFFFFF, true, false, false⟩,
    ⟨2, 0x20000000, 0xF3FFFFFF, true, false, false⟩,
    ⟨3, 0x30000000, 0xF01F0000, true, false, true⟩,
    ⟨4, 0x40000000, 0xF3FFFFFF, true, false, false⟩,
    ⟨5, 0x50000000, 0xFFFFFFF8, false, false, false⟩,
    ⟨6, 0x60000000, 0xFFFFFFFF, false, false, false⟩,
    ⟨7, 0x70000000, 0xFFFF0000, false, false, false⟩,
    ⟨8, 0x80000000, 0xFFFFFFFF, false, false, false⟩,
    ⟨9, 0x90000000, 0xFFFFFFFF, false, false, false⟩,
    ⟨10, 0xA0000000, 0xFC1F0000, false, true, true⟩,
    ⟨11, 0xB0000000, 0xFFFFFFFF, false, false, false⟩,
    ⟨12, 0xC0000000, 0xFFFF0000, false, false, false⟩ ]

/-- A word is a candidate for a row when `w & mask = match` (R66). -/
def OpcodeRow.candidate (row : OpcodeRow) (w : CommandWord) : Bool := w &&& row.mask == row.pattern

/-- A word satisfies a row and the conditions 2 to 4 of R67. -/
def OpcodeRow.accepts (row : OpcodeRow) (w : CommandWord) : Bool :=
  row.candidate w
    && (!row.hasSel || w.extractLsb' 26 2 != 3)
    && (!row.isInput || (w.extractLsb' 21 5 != 0 && decide ((w.extractLsb' 21 5).toNat ≤ 16)))
    && (!row.hasVector || w.extractLsb' 0 16 >>> min (w.extractLsb' 21 5).toNat 16 == 0)

/-- The instruction the decoder reads from a table row's word of `nbits` bits; a command is one 32-bit word
presented whole, so there is no byte order to apply (20_memory.md R42). -/
def decodeTableWord (nbits w : Nat) : Option Instr :=
  match decode (BitVec.ofNat 32 (w % 2 ^ nbits)) with
  | .ok i => some i
  | .error _ => none

end Sys2Proof
end

