-- ==== Sys2Proof/Config.lean ====
section
/-!
DEFINITION. What is fixed when a core is constructed or implemented: raw configurations (spec/00_scope.md
R8), the reference configuration (R7) with its open tap sets as free values, and the open implementation
parameters BUF_CAP and LEN_W (spec/20_memory.md R48, spec/10_state.md R23).
-/

namespace Sys2Proof

/-- A raw configuration as the host presents it at construction (R8): a width, tap index sets and initial
bit sequences "of any length". A tap set is a list of indices; order and repetition do not matter (log 9). -/
structure RawConfig where
  width : Nat
  taps : PerReg (List Nat)
  init : PerReg Bits
deriving DecidableEq, Repr

/-- The open implementation parameters; `none` is the spec's default, unbounded. -/
structure Params where
  /-- `BUF_CAP`, elements per buffer (20_memory.md R48). -/
  bufCap : Option Nat
  /-- `LEN_W`, the width of the step counter (10_state.md R23). -/
  lenWidth : Option Nat
deriving DecidableEq, Repr

/-- DESIGN CHOICE (log 2): the open parameter `T_G1` of R7, "a model ... must not assume any value": whether
index `i` is in the reference tap set of generator1. Safe: nothing can be proved of it. -/
opaque Config.tapsGenerator1 : Nat → Bit

/-- DESIGN CHOICE (log 2): the open parameter `T_CT` of R7, for the control register. -/
opaque Config.tapsControl : Nat → Bit

/-- DESIGN CHOICE (log 11): what the observation port of an implementation with a `LEN_W`-bit counter shows
of a step count that does not fit it; R23 forbids assuming wrap-around or saturation. -/
opaque Config.lenBeyondWidth : (lenWidth : Nat) → Nat → BitVec lenWidth

/-- The reference configuration (R7): `W = 4`, `T[G0]` = 0 and 1, the initial states 0100, 0111, 0110. The
free tap sets keep the one limit the spec gives them, `T[r] ⊆ 0..W-1`. -/
def Config.reference : RawConfig where
  width := 4
  taps := ⟨[0, 1], (List.range 4).filter Config.tapsGenerator1, (List.range 4).filter Config.tapsControl⟩
  init := ⟨[false, true, false, false], [false, true, true, true], [false, true, true, false]⟩

/-- The parameters at their default, unbounded (10_state.md R23, 20_memory.md R48). -/
def Config.unbounded : Params := ⟨none, none⟩

/-- The host-side default `steps = 16` (R7). -/
def Config.defaultSteps : Nat := 16

/-- The host-side end-to-end plaintext `1011010010011101` (R7). -/
def Config.defaultPlaintext : Bits :=
  [true, false, true, true, false, true, false, false,
   true, false, false, true, true, true, false, true]

end Sys2Proof
end

