-- ==== Sys2Proof/Machine/State.lean ====
section
/-!
DEFINITION. The state of the machine, as plain data, and the state after reset (spec/10_state.md R20 to R33,
spec/70_reset_and_hazards.md R180, R181), with the reasons a step can stop.
-/

namespace Sys2Proof.Machine

/-- The fault kinds of a command and OK (60_exceptions.md R150). A command that raises one of these does
not stop the machine: it answers a next state whose response carries the kind (R158, log 6). -/
inductive ErrorKind where
  | ok
  | configError
  | lengthMismatch
  | illegalCommand
  | badSteps
deriving DecidableEq, Repr

/-- A step record `(out, old, new)` (R20, R28). -/
structure StepRec where
  out : Bit
  old : Bits
  new : Bits
deriving DecidableEq, Repr

/-- The value of a response (R29). -/
inductive Value where
  /-- of LSTEP: the triple `(out, old, new)` -/
  | stepped (step : StepRec)
  /-- of LREAD: the vector `S[r]` -/
  | vector (v : Bits)
  /-- of COMBINE and GSTEP: one bit -/
  | bit (b : Bit)
deriving DecidableEq, Repr

/-- The response record of a command (R29). -/
structure Response where
  err : ErrorKind
  /-- `warn<r> = ZERO[r]` on the state after the command -/
  warn : PerReg Bit
  /-- `none` for a command that responds nothing, and whenever `err` is not OK (log 15) -/
  val : Option Value
deriving DecidableEq, Repr

/-- What the core has answered the host: a command's response, or construction's own "built" or ConfigError
(70_reset_and_hazards.md R180, R181). -/
inductive Output where
  | response (r : Response)
  | built
  | constructionError
deriving DecidableEq, Repr

/-- What the host presents to the core: a command word, or a construction with a raw configuration. -/
inductive HostAction where
  | command (w : CommandWord)
  | construct (raw : RawConfig)
deriving DecidableEq, Repr

/-- The configuration latched at construction, read-only from then on (R24): the width, the tap masks (`W`
elements, element `i` is 1 exactly when `i` is in `T[r]`) and the initial states. -/
structure Configuration where
  W : Nat
  T : PerReg Bits
  I : PerReg Bits
deriving DecidableEq, Repr

/-- A constructed core: its latched configuration and the complete architectural state of R20. -/
structure CoreState where
  cfg : Configuration
  /-- the three LFSR state registers (R21) -/
  S : PerReg Bits
  /-- lockstep steps produced since the last reset (R23) -/
  LEN : Nat
  /-- the keystream buffer (R27) -/
  KS : Bits
  /-- the cipher input buffer (R27) -/
  IN : Bits
  /-- the cipher output buffer (R27) -/
  OUT : Bits
  /-- the three trace buffers (R28) -/
  TR : PerReg (List StepRec)
deriving DecidableEq, Repr

/-- The whole state: the core, absent while it is unbuilt (70_reset_and_hazards.md R181); the implementation
parameters, which nothing writes; and the model's own two fields, the list of what the host will present
(log 3) and the list of what the core has answered (log 5), both oldest first. -/
structure State where
  core : Option CoreState
  params : Params
  port : List HostAction
  outputs : List Output
deriving DecidableEq, Repr

/-- Why the machine has no step at all. -/
inductive Fault where
  /-- Raised by the command port when a command word is presented to an unbuilt core: "has no step and
  produces no response" (70_reset_and_hazards.md R181; 93_implementation_defined.md U7, stuck). Safe: the
  spec gives such a core no behaviour. -/
  | unbuiltCore
deriving DecidableEq, Repr

/-- Why the model gives no meaning. -/
inductive Refusal where
  /-- Raised by `exec` for a command without a meaning yet; no arm does. Safe: nothing is claimed of it. -/
  | notModelled (mnemonic : String)
  /-- Raised by GSTEP, GENERATE, INLD, APPLY and CRYPT when a buffer would become longer than a finite
  BUF_CAP: "the model refuses it" (20_memory.md R48; U5). Safe: never with the default, unbounded. -/
  | bufferCapacity
  /-- Raised by construction with a well-formed configuration whose width is above 16: the encoded interface
  "takes `W <= 16` as a premise of construction" (30_encoding.md R72, log 12). Safe: nothing is claimed of such
  a core. -/
  | widthBeyondEncoding
deriving DecidableEq, Repr

/-- The machine right after reset: a core just constructed with the reference configuration (R33,
00_scope.md R7), nothing presented and nothing answered (logs 1, 3, 5). -/
def State.reset : State where
  core := some
    { cfg :=
        { W := 4
          T := ⟨[true, true, false, false], (List.range 4).map Config.tapsGenerator1,
                (List.range 4).map Config.tapsControl⟩
          I := ⟨[false, true, false, false], [false, true, true, true], [false, true, true, false]⟩ }
      S := ⟨[false, true, false, false], [false, true, true, true], [false, true, true, false]⟩
      LEN := 0
      KS := []
      IN := []
      OUT := []
      TR := ⟨[], [], []⟩ }
  params := Config.unbounded
  port := []
  outputs := []

end Sys2Proof.Machine
end

