-- ==== Sys2Proof/Machine/Flags.lean ====
section
/-!
DEFINITION. The three status flags, functions of the registers and never stored (spec/10_state.md R26).
-/

namespace Sys2Proof.Machine

/-- 1 exactly when every element is 0 (R26). -/
def allZero (v : Bits) : Bit := v.all fun b => !b

/-- `ZERO[r]` of a core (R26). -/
def zeroFlag (c : CoreState) (r : Reg) : Bit := allZero (c.S.get r)

/-- The `warn` field: `warn<r> = ZERO[r]` (R29). -/
def warnBits (c : CoreState) : PerReg Bit := PerReg.ofFn (zeroFlag c)

end Sys2Proof.Machine
end

