-- ==== Sys2Proof/Machine/Ops.lean ====
section
/-!
DEFINITION. The shared operations: buffer access (spec/20_memory.md R47), register access, completing a
command (spec/00_scope.md R12), taking a fault (spec/60_exceptions.md R158), the capacity of an
implementation with finite buffers (spec/20_memory.md R48), and the pure functions of a register step
(spec/40_lfsr.md R80 to R82). There is no return from a fault (spec/60_exceptions.md R160).
-/

namespace Sys2Proof.Machine

/-- `BufRead(B, k)`: element `k`, defined for `k < len(B)` (R47). -/
def bufRead {α : Type} (b : List α) (k : Nat) : Option α := b[k]?

/-- `BufAppend(B, e)`: one element longer, with `e` at index `len(B)` (R47). -/
def bufAppend {α : Type} (b : List α) (e : α) : List α := b ++ [e]

/-- `BufClear(B)` (R47). -/
def bufClear {α : Type} (_ : List α) : List α := []

/-- `S[r] <- v`: only the selected register (10_state.md R22). -/
def setReg (c : CoreState) (r : Reg) (v : Bits) : CoreState := { c with S := c.S.set r v }

/-- A command runs on a built core; an unbuilt core has no step (70_reset_and_hazards.md R181). -/
def onCore (s : State) (run : CoreState → Host.Outcome State Fault Refusal) :
    Host.Outcome State Fault Refusal :=
  match s.core with
  | none => .fault .unbuiltCore
  | some c => run c

/-- `respond(val)`: complete the command with `err = OK`, the core `c` as it is after it, and `warn` read on
`c` (00_scope.md R12, 10_state.md R29). -/
def respond (s : State) (c : CoreState) (val : Option Value) : Host.Outcome State Fault Refusal :=
  .next { s with core := some c, outputs := s.outputs ++ [.response ⟨.ok, warnBits c, val⟩] }

/-- `raise <Fault>`, TAKING AN EXCEPTION: the command is aborted with the state as before it, and the
response carries the fault's code, the `ZERO` flags of the unchanged core `c` and no value; "no state is
saved anywhere, no mode changes, no mask is set, no handler is entered" (60_exceptions.md R158). -/
def raiseFault (s : State) (c : CoreState) (e : ErrorKind) : Host.Outcome State Fault Refusal :=
  .next { s with core := some c, outputs := s.outputs ++ [.response ⟨e, warnBits c, none⟩] }

/-- A buffer of `n` elements fits the implementation's BUF_CAP (20_memory.md R48). -/
def fitsCapacity (p : Params) (n : Nat) : Bool :=
  match p.bufCap with
  | none => true
  | some cap => decide (n ≤ cap)

/-- A command that would make a buffer `n` elements long: refused when that exceeds BUF_CAP, "never
truncate or wrap" (20_memory.md R48, log 10). -/
def withCapacity (s : State) (n : Nat) (run : Host.Outcome State Fault Refusal) :
    Host.Outcome State Fault Refusal :=
  if fitsCapacity s.params n then run else .refused .bufferCapacity

/-- `fb(T, s)`, the XOR of the elements of `s` that the mask `T` taps; 0 for the empty set (40_lfsr.md R80). -/
def fb : Bits → Bits → Bit
  | t :: T, b :: s => (t && b) ^^ fb T s
  | _, _ => false

/-- `nxt(T, s) = s<1..W-1> ++ [fb(T, s)]`, with the feedback from the state before shifting (40_lfsr.md R81). -/
def nxt (T s : Bits) : Bits := s.drop 1 ++ [fb T s]

/-- `outbit(s) = s<0>` (40_lfsr.md R82). A register has at least one element, so the default is never
read (log 14). -/
def outbit (s : Bits) : Bit := s.headD false

/-- The record of one register step from `s` (40_lfsr.md R83, 42_generator.md R110). -/
def stepRecord (T s : Bits) : StepRec := ⟨outbit s, s, nxt T s⟩

/-- `combine(bit0, bit1, controlBit)` (41_combiner.md R100). -/
def combineBits (bit0 bit1 controlBit : Bit) : Bit := if controlBit then bit1 else bit0

/-- `xorseq(p, k)` (43_cipher.md R130). It is used on equal lengths only (log 14). -/
def xorseq (p k : Bits) : Bits := List.zipWith xor p k

end Sys2Proof.Machine
end

