-- ==== Sys2Proof/Machine/Construct.lean ====
section
/-!
DEFINITION. Construction, the core's one reset event (spec/00_scope.md R8, spec/10_state.md R33,
spec/30_encoding.md R72, spec/70_reset_and_hazards.md R180, R181).
-/

namespace Sys2Proof.Machine

/-- The two conjuncts of `cfg_ok` about one register (R8). -/
def regConfigOk (raw : RawConfig) (r : Reg) : Bool :=
  (raw.taps.get r).all (fun i => decide (i < raw.width)) && decide ((raw.init.get r).length = raw.width)

/-- `cfg_ok(c)` (R8). -/
def cfgOk (raw : RawConfig) : Bool :=
  decide (1 ≤ raw.width) && regConfigOk raw .g0 && regConfigOk raw .g1 && regConfigOk raw .ct

/-- What construction latches (R24, R180). -/
def latch (raw : RawConfig) : Configuration where
  W := raw.width
  T := PerReg.ofFn fun r => tapMask raw.width (raw.taps.get r)
  I := raw.init

/-- The state immediately after a successful construction (R33). -/
def freshCore (cfg : Configuration) : CoreState where
  cfg := cfg
  S := cfg.I
  LEN := 0
  KS := []
  IN := []
  OUT := []
  TR := ⟨[], [], []⟩

/-- Construction: "a function from raw configurations to either a machine or ConfigError" (R181). -/
def construct (raw : RawConfig) : Except ErrorKind CoreState :=
  if cfgOk raw then .ok (freshCore (latch raw)) else .error .configError

/-- The widths of the encoded interface, of which `1 <= W` is in `cfg_ok` already (30_encoding.md R72). -/
def widthEncodable (raw : RawConfig) : Bool := decide (raw.width ≤ 16)

/-- Construction presented to a core, built or not: a well-formed configuration replaces everything of the
old core; with an ill-formed one "it becomes unbuilt; the old machine is not kept" (R180, R181, log 8). A
well-formed one that the encoded interface does not have is refused (30_encoding.md R72, log 12). -/
def constructEvent (raw : RawConfig) (s : State) : Host.Outcome State Fault Refusal :=
  match construct raw with
  | .ok c =>
    if widthEncodable raw then .next { s with core := some c, outputs := s.outputs ++ [.built] }
    else .refused .widthBeyondEncoding
  | .error _ => .next { s with core := none, outputs := s.outputs ++ [.constructionError] }

end Sys2Proof.Machine
end

