-- ==== Sys2Proof/Machine/Generator.lean ====
section
/-!
DEFINITION. The keystream generator: the lockstep step and the commands GSTEP, GENERATE, GRESET
(spec/42_generator.md R110 to R113).
-/

namespace Sys2Proof.Machine

/-- One iteration of the loop of R110: step register `r` and append its record to `TR[r]`. -/
def stepTraced (c : CoreState) (r : Reg) : CoreState × Bit :=
  let step := stepRecord (c.cfg.T.get r) (c.S.get r)
  ({ c with S := c.S.set r step.new, TR := c.TR.set r (bufAppend (c.TR.get r) step) }, step.out)

/-- `lockstep()` (R110): each register advances once, in the order G0, G1, CT (R114); the keystream bit
combines the three bits read before the step. -/
def lockstep (c : CoreState) : CoreState × Bit :=
  let p0 := stepTraced c .g0
  let p1 := stepTraced p0.1 .g1
  let p2 := stepTraced p1.1 .ct
  let z := combineBits p0.2 p1.2 p2.2
  ({ p2.1 with KS := bufAppend p2.1.KS z, LEN := p2.1.LEN + 1 }, z)

/-- `n` lockstep steps, exactly (R112). -/
def locksteps : Nat → CoreState → CoreState
  | 0, c => c
  | n + 1, c => locksteps n (lockstep c).1

/-- Clear `KS` and the three `TR[r]` (R112). -/
def clearKeystream (c : CoreState) : CoreState :=
  { c with KS := bufClear c.KS, TR := PerReg.ofFn fun r => bufClear (c.TR.get r) }

/-- The body of GENERATE after its check: clear, then `n` lockstep steps from the current registers (R112,
R115). -/
def keystream (n : Nat) (c : CoreState) : CoreState := locksteps n (clearKeystream c)

/-- The length of the longest of `KS` and the `TR[r]` after one more lockstep step. -/
def grownLength (c : CoreState) : Nat :=
  max c.KS.length (max c.TR.g0.length (max c.TR.g1.length c.TR.ct.length)) + 1

/-- `GSTEP` (R111): one lockstep step; `KS` and `TR` are not cleared. -/
def execGstep (s : State) : Host.Outcome State Fault Refusal :=
  onCore s fun c =>
    withCapacity s (grownLength c) (respond s (lockstep c).1 (some (.bit (lockstep c).2)))

/-- `GENERATE n` (R112): BadSteps for `n = 0`, else `n` keystream bits in a cleared `KS`. -/
def execGenerate (n : Nat) (s : State) : Host.Outcome State Fault Refusal :=
  onCore s fun c =>
    if n = 0 then raiseFault s c .badSteps else withCapacity s n (respond s (keystream n c) none)

/-- `GRESET` (R113): the three registers from `I`, `LEN` to 0; no buffer changes. -/
def execGreset (s : State) : Host.Outcome State Fault Refusal :=
  onCore s fun c => respond s { c with S := c.cfg.I, LEN := 0 } none

end Sys2Proof.Machine
end

