-- ==== Sys2Proof/Machine/Cipher.lean ====
section
/-!
DEFINITION. The XOR stage: INCLR, INLD, APPLY, CRYPT (spec/43_cipher.md R131 to R134).
-/

namespace Sys2Proof.Machine

/-- Append the elements of `v` in order, leftmost first (R132). -/
def appendAll (b : Bits) : Bits → Bits
  | [] => b
  | e :: v => appendAll (bufAppend b e) v

/-- `INCLR` (R131). -/
def execInclr (s : State) : Host.Outcome State Fault Refusal :=
  onCore s fun c => respond s { c with IN := bufClear c.IN } none

/-- `INLD v` (R132): afterwards `IN` is the old `IN ++ v`. -/
def execInld (v : Bits) (s : State) : Host.Outcome State Fault Refusal :=
  onCore s fun c =>
    withCapacity s (c.IN.length + v.length) (respond s { c with IN := appendAll c.IN v } none)

/-- `APPLY` (R133): LengthMismatch when the lengths differ, else `OUT <- xorseq(IN, KS)`, all of it. -/
def execApply (s : State) : Host.Outcome State Fault Refusal :=
  onCore s fun c =>
    if c.IN.length = c.KS.length then
      withCapacity s c.IN.length (respond s { c with OUT := xorseq c.IN c.KS } none)
    else raiseFault s c .lengthMismatch

/-- `CRYPT n` (R134): BadSteps, then LengthMismatch, both before any register steps; else the body of
GENERATE and the XOR. -/
def execCrypt (n : Nat) (s : State) : Host.Outcome State Fault Refusal :=
  onCore s fun c =>
    if n = 0 then raiseFault s c .badSteps
    else if c.IN.length = n then
      withCapacity s n
        (respond s { keystream n c with OUT := xorseq c.IN (keystream n c).KS } none)
    else raiseFault s c .lengthMismatch

end Sys2Proof.Machine
end

