-- ==== Sys2Proof/Machine/Combiner.lean ====
section
/-!
DEFINITION. The combiner's command: COMBINE (spec/41_combiner.md R101).
-/

namespace Sys2Proof.Machine

/-- `COMBINE b0, b1, c` (R101): responds `combine(b0, b1, c)`; no register, counter or buffer is touched. -/
def execCombine (b0 b1 c : Bit) (s : State) : Host.Outcome State Fault Refusal :=
  onCore s fun core => respond s core (some (.bit (combineBits b0 b1 c)))

end Sys2Proof.Machine
end

