-- ==== Sys2Proof/Machine/Lfsr.lean ====
section
/-!
DEFINITION. The commands of one register: LSTEP, LRESET, LLOAD, LREAD (spec/40_lfsr.md R83 to R86).
-/

namespace Sys2Proof.Machine

/-- `LSTEP r` (R83): one step of register `r`, not recorded in `TR[r]` and not counted in `LEN`. -/
def execLstep (r : Reg) (s : State) : Host.Outcome State Fault Refusal :=
  onCore s fun c =>
    let step := stepRecord (c.cfg.T.get r) (c.S.get r)
    respond s (setReg c r step.new) (some (.stepped step))

/-- `LRESET r` (R84): `S[r] <- I[r]`. -/
def execLreset (r : Reg) (s : State) : Host.Outcome State Fault Refusal :=
  onCore s fun c => respond s (setReg c r (c.cfg.I.get r)) none

/-- `LLOAD r, v` (R85): ConfigError when `len(v)` is not `W`, else `S[r] <- v`; `I[r]` stays. A word for which
no vector is assembled "always faults with ConfigError" (30_encoding.md R63). -/
def execLload (r : Reg) (v : LoadOperand) (s : State) : Host.Outcome State Fault Refusal :=
  onCore s fun c =>
    match v with
    | .vector v => if v.length = c.cfg.W then respond s (setReg c r v) none else raiseFault s c .configError
    | .unassembled _ _ => raiseFault s c .configError

/-- `LREAD r` (R86): responds `S[r]`. -/
def execLread (r : Reg) (s : State) : Host.Outcome State Fault Refusal :=
  onCore s fun c => respond s c (some (.vector (c.S.get r)))

end Sys2Proof.Machine
end

