-- ==== Sys2Proof/Machine/Dispatch.lean ====
section
/-!
DEFINITION. One arm for each command, one direct call of its meaning.
-/

namespace Sys2Proof.Machine

def exec (i : Instr) (s : State) : Host.Outcome State Fault Refusal :=
  match i with
  | .lstep r => Sys2Proof.Machine.execLstep r s
  | .lreset r => Sys2Proof.Machine.execLreset r s
  | .lload r v => Sys2Proof.Machine.execLload r v s
  | .lread r => Sys2Proof.Machine.execLread r s
  | .combine b0 b1 c => Sys2Proof.Machine.execCombine b0 b1 c s
  | .gstep => Sys2Proof.Machine.execGstep s
  | .generate n => Sys2Proof.Machine.execGenerate n s
  | .greset => Sys2Proof.Machine.execGreset s
  | .inclr => Sys2Proof.Machine.execInclr s
  | .inld v => Sys2Proof.Machine.execInld v s
  | .apply => Sys2Proof.Machine.execApply s
  | .crypt n => Sys2Proof.Machine.execCrypt n s

end Sys2Proof.Machine
end

