-- ==== Sys2Proof/Machine/Port.lean ====
section
/-!
DEFINITION. The command port: what a step takes from the host's list, and what it does with it
(spec/00_scope.md R13, spec/10_state.md R25, spec/30_encoding.md R67, spec/60_exceptions.md R153).
-/

namespace Sys2Proof.Machine

/-- Present one more action of the host, to be taken before what it presents already. -/
def present (a : HostAction) (s : State) : State := { s with port := a :: s.port }

/-- A command word at the command port: an unbuilt core has no step; a word that does not decode raises
IllegalCommand, before anything else (60_exceptions.md R153); otherwise the command executes. -/
def runCommand (w : CommandWord) (s : State) : Host.Outcome State Fault Refusal :=
  onCore s fun c =>
    match decode w with
    | .ok i => exec i s
    | .error _ => raiseFault s c .illegalCommand

/-- One action of the host. -/
def runAction (a : HostAction) (s : State) : Host.Outcome State Fault Refusal :=
  match a with
  | .command w => runCommand w s
  | .construct raw => constructEvent raw s

/-- Take the next action the host presents and run it. With nothing presented the core waits, unchanged:
"Nothing outside the host's commands can change the core's state" (60_exceptions.md R156, log 4). -/
def takeAction (s : State) : Host.Outcome State Fault Refusal :=
  match s.port with
  | [] => .next s
  | a :: rest => runAction a { s with port := rest }

end Sys2Proof.Machine
end

