-- ==== Sys2Proof/Machine/Step.lean ====
section
/-!
DEFINITION. One step of the machine, and how a command word is placed where the next step takes it.
-/

namespace Sys2Proof.Machine

/-- One step: the next action the host presents, taken and executed to completion (00_scope.md R13). -/
def step (s : State) : Host.Outcome State Fault Refusal := takeAction s

/-- The state whose very next step takes the command word of value `w` (log 3). -/
def State.withFetchWord (s : State) (nbits w : Nat) : State :=
  present (.command (BitVec.ofNat 32 (w % 2 ^ nbits))) s

end Sys2Proof.Machine
end

