-- ==== Sys2Proof/Machine/Assembler.lean ====
section
/-!
DEFINITION. The notation in which the spec writes programs: pseudo-instructions as lists of commands, and the
assembler from a line of text to command words (spec/30_encoding.md R69, R70). The core never sees either.
Blanks separate tokens and a comma is a token of its own (log 19).
-/

namespace Sys2Proof.Machine

/-- The chunks of a bit sequence, 16 elements each, "the last chunk holding the remaining 1 to 16
characters" (R70). `fuel` is at least the number of elements. -/
def chunks16 : (fuel : Nat) → Bits → List Bits
  | 0, _ => []
  | fuel + 1, v => if v = [] then [] else v.take 16 :: chunks16 fuel (v.drop 16)

/-- `REGEN n` (R70). -/
def regenCommands (n : Nat) : List Instr := [.greset, .generate n]

/-- `INSET b` (R70). -/
def insetCommands (b : Bits) : List Instr := .inclr :: (chunks16 b.length b).map .inld

/-- `ENCRYPT b` (R70). -/
def encryptCommands (b : Bits) : List Instr := insetCommands b ++ [.greset, .crypt b.length]

/-- Put a finished token before the rest of the line's tokens. -/
def flushToken (token : List Char) (rest : List (List Char)) : List (List Char) :=
  if token = [] then rest else token :: rest

/-- The tokens of a line, with `;` to the end of the line a comment (R69). `token` is what has been read of
the current token. -/
def lexLine (token : List Char) : List Char → List (List Char)
  | [] => flushToken token []
  | ch :: line =>
    if ch = ';' then flushToken token []
    else if ch = ' ' ∨ ch = '\t' then flushToken token (lexLine [] line)
    else if ch = ',' then flushToken token ([','] :: lexLine [] line)
    else lexLine (token ++ [ch]) line

/-- `reg := 'G0' | 'G1' | 'CT'` (R69), case-sensitive. -/
def parseReg (t : List Char) : Option Reg :=
  if t = ['G', '0'] then some .g0
  else if t = ['G', '1'] then some .g1
  else if t = ['C', 'T'] then some .ct
  else none

/-- `bit := '0' | '1'` (R69). -/
def parseBitChar (ch : Char) : Option Bit :=
  if ch = '0' then some false else if ch = '1' then some true else none

/-- A token of characters '0' and '1', element 0 leftmost. -/
def parseBitString : List Char → Option Bits
  | [] => some []
  | ch :: t => do
    let b ← parseBitChar ch
    let v ← parseBitString t
    pure (b :: v)

/-- A bit string of 1 to `most` characters. -/
def parseBits (most : Nat) (t : List Char) : Option Bits :=
  if t.length = 0 ∨ most < t.length then none else parseBitString t

/-- `bit` as an operand of COMBINE. -/
def parseBit (t : List Char) : Option Bit :=
  match t with
  | [ch] => parseBitChar ch
  | _ => none

/-- The value of a digit in a base of at most 16. -/
def digitValue (base : Nat) (ch : Char) : Option Nat :=
  let n := ch.toNat
  let v := if 48 ≤ n ∧ n ≤ 57 then n - 48
    else if 65 ≤ n ∧ n ≤ 70 then n - 55
    else if 97 ≤ n ∧ n ≤ 102 then n - 87
    else 16
  if v < base then some v else none

/-- A number in a base, most significant digit first, on top of the value read so far. -/
def parseDigits (base : Nat) : Nat → List Char → Option Nat
  | sofar, [] => some sofar
  | sofar, ch :: t =>
    match digitValue base ch with
    | some d => parseDigits base (sofar * base + d) t
    | none => none

/-- `count := decimal number 0 to 65535` (R69). -/
def parseCount (t : List Char) : Option Nat :=
  if t = [] then none
  else match parseDigits 10 0 t with
    | some n => if n ≤ 65535 then some n else none
    | none => none

/-- `hex32 := '0x' followed by 8 hexadecimal digits` (R69). -/
def parseHex32 (t : List Char) : Option CommandWord :=
  match t with
  | '0' :: 'x' :: digits =>
    if digits.length = 8 then (parseDigits 16 0 digits).map (BitVec.ofNat 32) else none
  | _ => none

/-- A command without an operand. -/
def asmPlain (i : Instr) (args : List (List Char)) : Option (List CommandWord) :=
  if args = [] then some [encode i] else none

/-- A command whose one operand is a register. -/
def asmReg (mk : Reg → Instr) (args : List (List Char)) : Option (List CommandWord) :=
  match args with
  | [r] => (parseReg r).map fun r => [encode (mk r)]
  | _ => none

/-- Commands made from one count. -/
def asmCount (mk : Nat → List Instr) (args : List (List Char)) : Option (List CommandWord) :=
  match args with
  | [n] => (parseCount n).map fun n => (mk n).map encode
  | _ => none

/-- Commands made from one bit string of at most `most` characters. -/
def asmBits (most : Nat) (mk : Bits → List Instr) (args : List (List Char)) : Option (List CommandWord) :=
  match args with
  | [v] => (parseBits most v).map fun v => (mk v).map encode
  | _ => none

/-- `LLOAD reg ',' bits`. -/
def asmLoad (args : List (List Char)) : Option (List CommandWord) :=
  match args with
  | [r, [','], v] => do
    let r ← parseReg r
    let v ← parseBits 16 v
    pure [encode (.lload r (.vector v))]
  | _ => none

/-- `COMBINE bit ',' bit ',' bit`. -/
def asmCombine (args : List (List Char)) : Option (List CommandWord) :=
  match args with
  | [b0, [','], b1, [','], c] => do
    let b0 ← parseBit b0
    let b1 ← parseBit b1
    let c ← parseBit c
    pure [encode (.combine b0 b1 c)]
  | _ => none

/-- `.word hex32`, "the only way to write an illegal encoding" (R69). -/
def asmWord (args : List (List Char)) : Option (List CommandWord) :=
  match args with
  | [h] => (parseHex32 h).map fun w => [w]
  | _ => none

/-- The command words of a line's tokens: a command of R69, or a pseudo-instruction of R70; a pseudo-instruction's
bit string may be any length of 1 or more, of ENCRYPT at most 65535. -/
def asmTokens (tokens : List (List Char)) : Option (List CommandWord) :=
  match tokens with
  | [] => some []
  | m :: args =>
    if m = "LSTEP".toList then asmReg .lstep args
    else if m = "LRESET".toList then asmReg .lreset args
    else if m = "LLOAD".toList then asmLoad args
    else if m = "LREAD".toList then asmReg .lread args
    else if m = "COMBINE".toList then asmCombine args
    else if m = "GSTEP".toList then asmPlain .gstep args
    else if m = "GENERATE".toList then asmCount (fun n => [.generate n]) args
    else if m = "GRESET".toList then asmPlain .greset args
    else if m = "INCLR".toList then asmPlain .inclr args
    else if m = "INLD".toList then asmBits 16 (fun v => [.inld v]) args
    else if m = "APPLY".toList then asmPlain .apply args
    else if m = "CRYPT".toList then asmCount (fun n => [.crypt n]) args
    else if m = ".word".toList then asmWord args
    else if m = "REGEN".toList then asmCount regenCommands args
    else if m = "INSET".toList then asmBits (args.flatten.length) insetCommands args
    else if m = "ENCRYPT".toList then asmBits 65535 encryptCommands args
    else none

/-- The command words of one line of text; `none` for a line that the syntax of R69 and R70 does not have. -/
def assembleLine (line : List Char) : Option (List CommandWord) := asmTokens (lexLine [] line)

/-- The command words of a program, one line after the other (R69: "one command per line"). -/
def assemble : List (List Char) → Option (List CommandWord)
  | [] => some []
  | line :: rest => do
    let ws ← assembleLine line
    let more ← assemble rest
    pure (ws ++ more)

end Sys2Proof.Machine
end

