-- ==== Sys2Proof/Machine/Observe.lean ====
section
/-!
DEFINITION. The observation port: what the host reads between two commands, without a step and without a
side effect (spec/10_state.md R30), with the projections and packings of R24 and R28.
-/

namespace Sys2Proof.Machine

/-- The raw output sequence `raw[r]`, the projection of `TR[r]` to its output bits (R28). -/
def rawOutputs (c : CoreState) (r : Reg) : Bits := (c.TR.get r).map fun t => t.out

/-- A step record as the packed number `out, pk(old), pk(new)` of `2W+1` bits, `out` most significant (R28). -/
def packRecord (width : Nat) (t : StepRec) : Nat :=
  t.out.toNat * 2 ^ (2 * width) + pk t.old * 2 ^ width + pk t.new

/-- The packed tap mask `tm(T[r])` (R24). -/
def packedTaps (c : CoreState) (r : Reg) : Nat := pk (c.cfg.T.get r)

/-- What the port shows of `LEN`: the count, as long as it fits the counter's width `LEN_W`; beyond that the
spec states no value and "a model must not assume wrap-around or saturation" (R23, log 11). -/
def observedLen (p : Params) (len : Nat) : Nat :=
  match p.lenWidth with
  | none => len
  | some w => if len < 2 ^ w then len else (Config.lenBeyondWidth w len).toNat

/-- Everything the host may read (R30). -/
structure Observation where
  W : Nat
  T : PerReg Bits
  I : PerReg Bits
  S : PerReg Bits
  ZERO : PerReg Bit
  LEN : Nat
  KS : Bits
  IN : Bits
  OUT : Bits
  TR : PerReg (List StepRec)
  lenKS : Nat
  lenIN : Nat
  lenOUT : Nat
  lenTR : PerReg Nat
deriving DecidableEq, Repr

/-- The observation port of a core (R30). -/
def observeCore (p : Params) (c : CoreState) : Observation where
  W := c.cfg.W
  T := c.cfg.T
  I := c.cfg.I
  S := c.S
  ZERO := warnBits c
  LEN := observedLen p c.LEN
  KS := c.KS
  IN := c.IN
  OUT := c.OUT
  TR := c.TR
  lenKS := c.KS.length
  lenIN := c.IN.length
  lenOUT := c.OUT.length
  lenTR := PerReg.ofFn fun r => (c.TR.get r).length

/-- The observation port; an unbuilt core "has no `W`, no registers, no state" to read
(70_reset_and_hazards.md R181). -/
def observe (s : State) : Option Observation := s.core.map (observeCore s.params)

end Sys2Proof.Machine
end

