-- ==== Sys2Proof/Machine/Response.lean ====
section
/-!
DEFINITION. The response port: the five fields in which a response is presented (spec/30_encoding.md R71)
and the numeric codes of the faults (spec/60_exceptions.md R150).
-/

namespace Sys2Proof.Machine

/-- The numeric code of an error kind (R150); 5 to 7 are never produced. -/
def errorCode : ErrorKind → BitVec 3
  | .ok => 0
  | .configError => 1
  | .lengthMismatch => 2
  | .illegalCommand => 3
  | .badSteps => 4

/-- The five fields of the response port (R71). -/
structure ResponsePort where
  rspErr : BitVec 3
  rspWarn : BitVec 3
  rspBit : Bit
  rspA : BitVec 16
  rspB : BitVec 16
deriving DecidableEq, Repr

/-- `pk(warn)`: bit 2 is `ZERO[G0]`, bit 1 `ZERO[G1]`, bit 0 `ZERO[CT]` (R71). -/
def packWarn (w : PerReg Bit) : BitVec 3 := BitVec.ofNat 3 (pk [w.g0, w.g1, w.ct])

/-- `zext_16(pk(v))`, for a vector of at most 16 elements (R71, R72). -/
def packVector (v : Bits) : BitVec 16 := BitVec.ofNat 16 (pk v)

/-- A response on the response port with only the fields that every response has; the others driven 0. -/
def bareResponse (r : Response) : ResponsePort := ⟨errorCode r.err, packWarn r.warn, false, 0, 0⟩

/-- A response on the response port: "A field not named for a command, and every value field when
`rsp_err != 0`, is driven 0" (R71). -/
def encodeResponse (r : Response) : ResponsePort :=
  if r.err = .ok then
    match r.val with
    | none => bareResponse r
    | some (.stepped t) =>
      { bareResponse r with rspBit := t.out, rspA := packVector t.old, rspB := packVector t.new }
    | some (.vector v) => { bareResponse r with rspA := packVector v }
    | some (.bit b) => { bareResponse r with rspBit := b }
  else bareResponse r

end Sys2Proof.Machine
end

