-- ==== Sys2Proof/Safety.lean ====
section
/-!
DEFINITION. The terms in which claims speak: what holds of every constructed core (spec/10_state.md R28, R32,
spec/20_memory.md R48), the states a command leaves, and runs of commands (spec/20_memory.md R49).
-/

namespace Sys2Proof.Machine

/-- What holds of every constructed core: one width for every register, tap mask and initial state (R32,
00_scope.md R4 to R6), four buffers of one length (R28), and in them the records of register steps and the
keystream bits that these records combine to (R28, 42_generator.md R110). -/
structure CoreInv (c : CoreState) : Prop where
  width_pos : 1 ≤ c.cfg.W
  taps_length : ∀ r, (c.cfg.T.get r).length = c.cfg.W
  init_length : ∀ r, (c.cfg.I.get r).length = c.cfg.W
  reg_length : ∀ r, (c.S.get r).length = c.cfg.W
  trace_length : ∀ r, (c.TR.get r).length = c.KS.length
  trace_record : ∀ r, ∀ t ∈ c.TR.get r,
    t.old.length = c.cfg.W ∧ t = stepRecord (c.cfg.T.get r) t.old
  keystream_bit : ∀ (k : Nat) (t0 t1 tc : StepRec), c.TR.g0[k]? = some t0 → c.TR.g1[k]? = some t1 →
    c.TR.ct[k]? = some tc → c.KS[k]? = some (combineBits t0.out t1.out tc.out)

/-- No buffer is longer than a finite BUF_CAP (20_memory.md R48). -/
structure WithinCapacity (p : Params) (c : CoreState) : Prop where
  ks : fitsCapacity p c.KS.length = true
  inp : fitsCapacity p c.IN.length = true
  out : fitsCapacity p c.OUT.length = true
  tr : ∀ r, fitsCapacity p (c.TR.get r).length = true

/-- The invariant of the machine: if the core is built, it is well-formed, its buffers fit, and its width is
one of the encoded interface (30_encoding.md R72). -/
def Inv (s : State) : Prop :=
  ∀ c, s.core = some c → CoreInv c ∧ WithinCapacity s.params c ∧ c.cfg.W ≤ 16

/-- The state after a command that completed with the core `c` and the response value `val`: nothing but
the core and the list of responses differs. -/
def completed (s : State) (c : CoreState) (val : Option Value) : State :=
  { s with core := some c, outputs := s.outputs ++ [.response ⟨.ok, warnBits c, val⟩] }

/-- The state after a command that faulted on the core `c`: nothing but the list of responses differs
(60_exceptions.md R158). -/
def aborted (s : State) (c : CoreState) (e : ErrorKind) : State :=
  { s with outputs := s.outputs ++ [.response ⟨e, warnBits c, none⟩] }

/-- The number of tapped elements of `s` that are 1 (40_lfsr.md R80). -/
def tappedOnes (T s : Bits) : Nat :=
  (List.range s.length).countP fun i => T[i]? == some true && s[i]? == some true

/-- The state of a register after `k` steps from `s` with tap mask `T` (40_lfsr.md R88). -/
def stepsFrom (T : Bits) : (k : Nat) → Bits → Bits
  | 0, s => s
  | k + 1, s => stepsFrom T k (nxt T s)

/-- The `k`-th output bit of a register stepped from `s` (40_lfsr.md R88). -/
def outputAt (T s : Bits) (k : Nat) : Bit := outbit (stepsFrom T k s)

/-- The operands of a command are those its word carries: the register of `sel` (30_encoding.md R62), the
vector of `len` and `data` (R63; none of LLOAD with `len` 0 or above 16), the count in `data` (R64), the three bits of `data[2:0]` (R65). -/
def assembledFrom (w : CommandWord) : Instr → Prop
  | .lstep r => regNumber r = w.extractLsb' 26 2
  | .lreset r => regNumber r = w.extractLsb' 26 2
  | .lload r v =>
    regNumber r = w.extractLsb' 26 2 ∧
      (match v with
      | .vector v => 1 ≤ (w.extractLsb' 21 5).toNat ∧ (w.extractLsb' 21 5).toNat ≤ 16 ∧
          v = unpk (w.extractLsb' 21 5).toNat (w.extractLsb' 0 16).toNat
      | .unassembled _ _ => (w.extractLsb' 21 5).toNat = 0 ∨ 16 < (w.extractLsb' 21 5).toNat)
  | .lread r => regNumber r = w.extractLsb' 26 2
  | .combine b0 b1 c => b0 = w.getLsbD 2 ∧ b1 = w.getLsbD 1 ∧ c = w.getLsbD 0
  | .gstep => True
  | .generate n => n = (w.extractLsb' 0 16).toNat
  | .greset => True
  | .inclr => True
  | .inld v => v = unpk (w.extractLsb' 21 5).toNat (w.extractLsb' 0 16).toNat
  | .apply => True
  | .crypt n => n = (w.extractLsb' 0 16).toNat

/-- The commands of a list executed in order, each on the state the one before it left (20_memory.md R49). -/
def execAll : List Instr → State → Host.Outcome State Fault Refusal
  | [], s => .next s
  | i :: is, s =>
    match exec i s with
    | .next t => execAll is t
    | .fault e => .fault e
    | .refused e => .refused e

/-- The state with the words of a list of commands presented by the host and nothing else (10_state.md
R25). -/
def presenting (is : List Instr) (s : State) : State :=
  { s with port := is.map fun i => .command (encode i) }

/-- The commands that may write register `r`, as R22 of 10_state.md lists them. -/
def mayWriteReg (r : Reg) : Instr → Bool
  | .lstep r' => r' == r
  | .lreset r' => r' == r
  | .lload r' _ => r' == r
  | .lread _ => false
  | .combine _ _ _ => false
  | .gstep => true
  | .generate _ => true
  | .greset => true
  | .inclr => false
  | .inld _ => false
  | .apply => false
  | .crypt _ => true

/-- The commands with a "w" in the columns `KS` and `TR[r]` of the table of R46 of 20_memory.md. -/
def mayWriteKeystream : Instr → Bool
  | .lstep _ => false
  | .lreset _ => false
  | .lload _ _ => false
  | .lread _ => false
  | .combine _ _ _ => false
  | .gstep => true
  | .generate _ => true
  | .greset => false
  | .inclr => false
  | .inld _ => false
  | .apply => false
  | .crypt _ => true

/-- The commands with a "w" in the column `IN` of the table of R46 of 20_memory.md. -/
def mayWriteInput : Instr → Bool
  | .lstep _ => false
  | .lreset _ => false
  | .lload _ _ => false
  | .lread _ => false
  | .combine _ _ _ => false
  | .gstep => false
  | .generate _ => false
  | .greset => false
  | .inclr => true
  | .inld _ => true
  | .apply => false
  | .crypt _ => false

/-- The commands with a "w" in the column `OUT` of the table of R46 of 20_memory.md. -/
def mayWriteOutput : Instr → Bool
  | .lstep _ => false
  | .lreset _ => false
  | .lload _ _ => false
  | .lread _ => false
  | .combine _ _ _ => false
  | .gstep => false
  | .generate _ => false
  | .greset => false
  | .inclr => false
  | .inld _ => false
  | .apply => true
  | .crypt _ => true

/-- The step counter after a successful command, as R23 of 10_state.md says. -/
def lenAfter (len : Nat) : Instr → Nat
  | .lstep _ => len
  | .lreset _ => len
  | .lload _ _ => len
  | .lread _ => len
  | .combine _ _ _ => len
  | .gstep => len + 1
  | .generate n => len + n
  | .greset => 0
  | .inclr => len
  | .inld _ => len
  | .apply => len
  | .crypt n => len + n

/-- The commands whose response carries a value (10_state.md R29). -/
def hasValue : Instr → Bool
  | .lstep _ => true
  | .lreset _ => false
  | .lload _ _ => false
  | .lread _ => true
  | .combine _ _ _ => true
  | .gstep => true
  | .generate _ => false
  | .greset => false
  | .inclr => false
  | .inld _ => false
  | .apply => false
  | .crypt _ => false

/-- Every construction the host presents is with a well-formed configuration of the encoded interface. -/
def onlyGoodConstructions (port : List HostAction) : Prop :=
  ∀ raw, HostAction.construct raw ∈ port → cfgOk raw = true ∧ raw.width ≤ 16

/-- The three iterations of the loop of a lockstep step taken in some order (42_generator.md R114), with the
output bit that each of them reads. -/
def stepInOrder (order : List Reg) (c : CoreState) : CoreState × PerReg Bit :=
  order.foldl (fun p r => ((stepTraced p.1 r).1, p.2.set r (stepTraced p.1 r).2))
    (c, ⟨false, false, false⟩)

/-- The three iterations all at once: each register stepped from the core as it was (42_generator.md R114). -/
def stepAtOnce (c : CoreState) : CoreState × PerReg Bit :=
  ({ c with
      S := ⟨nxt c.cfg.T.g0 c.S.g0, nxt c.cfg.T.g1 c.S.g1, nxt c.cfg.T.ct c.S.ct⟩
      TR := ⟨c.TR.g0 ++ [stepRecord c.cfg.T.g0 c.S.g0], c.TR.g1 ++ [stepRecord c.cfg.T.g1 c.S.g1],
            c.TR.ct ++ [stepRecord c.cfg.T.ct c.S.ct]⟩ },
    ⟨outbit c.S.g0, outbit c.S.g1, outbit c.S.ct⟩)

/-- What a lockstep step does once the three registers have stepped: combine the three output bits, append the
bit to `KS` and count the step (42_generator.md R110; the join barrier of 20_memory.md R50). -/
def joinStep (p : CoreState × PerReg Bit) : CoreState × Bit :=
  ({ p.1 with KS := p.1.KS ++ [combineBits p.2.g0 p.2.g1 p.2.ct], LEN := p.1.LEN + 1 },
    combineBits p.2.g0 p.2.g1 p.2.ct)

end Sys2Proof.Machine
end

