-- ==== Sys2Proof/Certificates/Slice0/Obligations.lean ====
section
/-!
DEFINITION. The statements for the provers. They come from the numbered rules of spec/; each docstring names
the rule. A core is built when `s.core = some c`; `CoreInv` is the invariant that a statement of its own
(`EveryStepKeepsTheInvariant`) says every step keeps.
-/

open Sys2Proof Sys2Proof.Machine

/-! ### Encoding (spec/30_encoding.md) -/

/-- One written word of every family, and illegal ones, from the tables of spec/95_test_vectors.md: V-E1, and
V-C1 for `COMBINE 0,1,1`, whose operand order is R65 of 30_encoding.md. -/
def Obligations.DecodesWrittenWords : Prop :=
  decode 0x18000000 = .ok (.lstep .ct) ∧
  decode 0x24000000 = .ok (.lreset .g1) ∧
  decode 0x34800007 = .ok (.lload .g1 (.vector [false, true, true, true])) ∧
  decode 0x48000000 = .ok (.lread .ct) ∧
  decode 0x50000003 = .ok (.combine false true true) ∧
  decode 0x60000000 = .ok .gstep ∧
  decode 0x70000010 = .ok (.generate 16) ∧
  decode 0xA0200001 = .ok (.inld [true]) ∧
  decode 0xB0000000 = .ok .apply ∧
  decode 0xC0000010 = .ok (.crypt 16) ∧
  decode 0x1C000000 = .error .reservedSelect ∧
  decode 0x34800017 = .error .dataAboveLength ∧
  decode 0xA2200000 = .error .inputLength ∧
  decode 0x00000000 = .error .reservedOpcode

/-- Every command the encoding admits, with every operand it admits, is read back from its word. For a LLOAD
with `len` 0 or above 16, of which R63 assembles no vector, it rests on the model's choice that the operand keeps
the fields `len` and `data` (log 13). -/
def Obligations.DecodeOfEncodeIsTheCommand : Prop :=
  ∀ i : Instr, i.wf = true → decode (encode i) = .ok i

/-- Every legal word carries exactly one command, which the encoding admits, and is that command's word. For a
LLOAD word with `len` 0 or above 16, of which R63 assembles no vector, that no two words carry one command and
that every bit comes back rests on the model's choice that the operand keeps the fields `len` and `data`
(log 13). -/
def Obligations.EncodeOfDecodeIsTheWord : Prop :=
  ∀ (w : CommandWord) (i : Instr), decode w = .ok i → i.wf = true ∧ encode i = w

/-- R67: the rows are disjoint; a word decodes to the command of a row exactly when it meets that row's
conditions, with its operands assembled as R62 to R65 say; any other word raises IllegalCommand, and nothing
but the response changes. -/
def Obligations.DecodingFollowsTheRows : Prop :=
  ∀ w : CommandWord,
    (∀ row ∈ opcodeRows, ∀ row' ∈ opcodeRows, row.candidate w = true → row'.candidate w = true → row = row') ∧
    (∀ i, decode w = .ok i →
      assembledFrom w i ∧ ∃ row ∈ opcodeRows, row.opcode = i.opcode ∧ row.accepts w = true) ∧
    (∀ row ∈ opcodeRows, row.accepts w = true → ∃ i, decode w = .ok i ∧ i.opcode = row.opcode) ∧
    ((∀ row ∈ opcodeRows, row.accepts w = false) → ∀ s c, s.core = some c →
      runCommand w s = .next (aborted s c .illegalCommand))

/-- R63: the vector operand of LLOAD and INLD is read from `data` bit by bit, element 0 from bit `len-1`;
`data` bits at or above `len` must be 0; INLD needs `len` 1 to 16; LLOAD decodes with every `len`, and with
`len` 0 or above 16 assembles no vector and faults with ConfigError on every core. -/
def Obligations.VectorOperandIsReadFromData : Prop :=
  ∀ (r : Reg) (len : BitVec 5) (data : BitVec 16),
    (data >>> min len.toNat 16 = 0 → 1 ≤ len.toNat → len.toNat ≤ 16 →
      ∃ v : Bits, decode (joinWord ⟨3, regNumber r, len, 0, data⟩) = .ok (.lload r (.vector v)) ∧
        decode (joinWord ⟨10, 0, len, 0, data⟩) = .ok (.inld v) ∧
        v.length = len.toNat ∧ ∀ i < len.toNat, v[i]? = some (data.getLsbD (len.toNat - 1 - i))) ∧
    (data >>> min len.toNat 16 ≠ 0 →
      (∃ e, decode (joinWord ⟨3, regNumber r, len, 0, data⟩) = .error e) ∧
      ∃ e, decode (joinWord ⟨10, 0, len, 0, data⟩) = .error e) ∧
    (len.toNat = 0 ∨ 16 < len.toNat →
      (∃ e, decode (joinWord ⟨10, 0, len, 0, data⟩) = .error e) ∧
      (data >>> min len.toNat 16 = 0 →
        (∃ l d, decode (joinWord ⟨3, regNumber r, len, 0, data⟩) = .ok (.lload r (.unassembled l d))) ∧
        ∀ (s : State) (c : CoreState), s.core = some c →
          runCommand (joinWord ⟨3, regNumber r, len, 0, data⟩) s = .next (aborted s c .configError)))

/-! ### The register and its commands (spec/40_lfsr.md) -/

/-- R80: the feedback is 1 exactly when an odd number of tapped elements is 1; it is 0 for the empty tap set
and for the all-zero state; packed, it is the parity of `pk(s) AND tm(T)`. -/
def Obligations.FeedbackIsParityOfTaps : Prop :=
  ∀ T s : Bits, T.length = s.length →
    (fb T s = true ↔ tappedOnes T s % 2 = 1) ∧
    fb (List.replicate s.length false) s = false ∧
    fb T (List.replicate s.length false) = false ∧
    (fb T s = true ↔ ((List.range s.length).countP fun i => (pk s &&& pk T).testBit i) % 2 = 1)

/-- R81: element `j` of the next state is element `j+1`, the last is the feedback, the length stays; packed,
the word shifts one place up and the feedback enters at bit 0. -/
def Obligations.NextStateShiftsAndAppends : Prop :=
  ∀ T s : Bits, 1 ≤ s.length → T.length = s.length →
    (nxt T s).length = s.length ∧
    (∀ j, j + 1 < s.length → (nxt T s)[j]? = s[j + 1]?) ∧
    (nxt T s)[s.length - 1]? = some (fb T s) ∧
    (s.length = 1 → nxt T s = [fb T s]) ∧
    pk (nxt T s) = (pk s * 2) % 2 ^ s.length + (fb T s).toNat

/-- R82: the output bit is element 0 of the state before the shift, bit `W-1` of its packed form. -/
def Obligations.OutputBitIsElementZero : Prop :=
  ∀ s : Bits, 1 ≤ s.length → s[0]? = some (outbit s) ∧ outbit s = (pk s).testBit (s.length - 1)

/-- R83: LSTEP, with its word. -/
def Obligations.LstepStepsOneRegister : Prop :=
  ∀ (s : State) (c : CoreState) (r : Reg), s.core = some c → CoreInv c →
    decode (joinWord ⟨1, regNumber r, 0, 0, 0⟩) = .ok (.lstep r) ∧
    ∃ (out : Bit) (new : Bits),
      exec (.lstep r) s =
        .next (completed s { c with S := c.S.set r new } (some (.stepped ⟨out, c.S.get r, new⟩))) ∧
      (c.S.get r)[0]? = some out ∧
      new.length = c.cfg.W ∧
      (∀ j, j + 1 < c.cfg.W → new[j]? = (c.S.get r)[j + 1]?) ∧
      new[c.cfg.W - 1]? = some (decide (tappedOnes (c.cfg.T.get r) (c.S.get r) % 2 = 1))

/-- R84: LRESET, with its word: the configured vector, whatever was loaded before; idempotent. -/
def Obligations.LresetRestoresTheConfiguredState : Prop :=
  ∀ (s : State) (c : CoreState) (r : Reg), s.core = some c →
    decode (joinWord ⟨2, regNumber r, 0, 0, 0⟩) = .ok (.lreset r) ∧
    exec (.lreset r) s = .next (completed s { c with S := c.S.set r (c.cfg.I.get r) } none) ∧
    (∀ v, v.length = c.cfg.W → ∃ t, execAll [.lload r (.vector v), .lreset r] s = .next t ∧
      t.core = some { c with S := c.S.set r (c.cfg.I.get r) }) ∧
    ∃ t, execAll [.lreset r, .lreset r] s = .next t ∧
      t.core = some { c with S := c.S.set r (c.cfg.I.get r) }

/-- R85: LLOAD, with its word: ConfigError for a vector whose length is not `W`, else only `S[r]` changes. -/
def Obligations.LloadLoadsOrRaisesConfigError : Prop :=
  ∀ (s : State) (c : CoreState) (r : Reg) (v : Bits), s.core = some c →
    (1 ≤ v.length → v.length ≤ 16 →
      decode (joinWord ⟨3, regNumber r, BitVec.ofNat 5 v.length, 0, BitVec.ofNat 16 (pk v)⟩)
        = .ok (.lload r (.vector v))) ∧
    (v.length = c.cfg.W →
      exec (.lload r (.vector v)) s = .next (completed s { c with S := c.S.set r v } none)) ∧
    (v.length ≠ c.cfg.W → exec (.lload r (.vector v)) s = .next (aborted s c .configError))

/-- R86: LREAD, with its word: responds the vector and writes nothing. -/
def Obligations.LreadRespondsTheRegister : Prop :=
  ∀ (s : State) (c : CoreState) (r : Reg), s.core = some c →
    decode (joinWord ⟨4, regNumber r, 0, 0, 0⟩) = .ok (.lread r) ∧
    exec (.lread r) s = .next (completed s c (some (.vector (c.S.get r))))

/-- R87: all-zero is a fixed point with output 0, for every tap set and any number of steps, and LSTEP on it
completes with `warn<r>` = 1. -/
def Obligations.AllZeroIsAFixedPoint : Prop :=
  (∀ (T : Bits) (n : Nat), 1 ≤ n →
    let z := List.replicate n false
    fb T z = false ∧ nxt T z = z ∧ outbit z = false ∧
      ∀ k, stepsFrom T k z = z ∧ outputAt T z k = false) ∧
  ∀ (s : State) (c : CoreState) (r : Reg), s.core = some c → CoreInv c →
    c.S.get r = List.replicate c.cfg.W false →
    ∃ t, exec (.lstep r) s = .next t ∧ t.core = some c ∧
      ∃ w v, t.outputs = s.outputs ++ [.response ⟨.ok, w, v⟩] ∧ w.get r = true

/-- The recurrence of R88: the state before step `t` is a window of the outputs, and every later output is
the XOR of the tapped ones. -/
def Obligations.OutputsSatisfyTheRecurrence : Prop :=
  ∀ T s : Bits, 1 ≤ s.length → T.length = s.length →
    (∀ t, stepsFrom T t s = (List.range s.length).map fun j => outputAt T s (t + j)) ∧
    (∀ j, j < s.length → s[j]? = some (outputAt T s j)) ∧
    ∀ t, outputAt T s (t + s.length) = fb T ((List.range s.length).map fun i => outputAt T s (t + i))

/-- R89 of 40_lfsr.md, which the spec marks as derived: the step is a bijection on the vectors of a width
exactly when index 0 is tapped, with the two lists of consequences. -/
def Obligations.StepIsInvertibleExactlyWithTapZero : Prop :=
  ∀ (W : Nat) (T : Bits), 1 ≤ W → T.length = W →
    (((∀ s s' : Bits, s.length = W → s'.length = W → nxt T s = nxt T s' → s = s') ∧
        ∀ u : Bits, u.length = W → ∃ s : Bits, s.length = W ∧ nxt T s = u) ↔ T[0]? = some true) ∧
    (T[0]? = some true →
      (∀ s : Bits, s.length = W → nxt T s = List.replicate W false → s = List.replicate W false) ∧
      ∀ s : Bits, s.length = W → ∃ p, 1 ≤ p ∧ ∀ k, stepsFrom T (k + p) s = stepsFrom T k s) ∧
    (T[0]? = some false →
      (∃ s s' : Bits, s.length = W ∧ s'.length = W ∧ s ≠ s' ∧ nxt T s = nxt T s') ∧
      (∃ s : Bits, s.length = W ∧ s ≠ List.replicate W false ∧ nxt T s = List.replicate W false) ∧
      ∃ s : Bits, s.length = W ∧ ∀ k, 1 ≤ k → stepsFrom T k s ≠ s)

/-- R90: the sequence of states is eventually periodic with a period of at most `2^W - 1`, periodic from the
start when index 0 is tapped; the reference G0 attains the bound, through all the non-zero vectors. -/
def Obligations.PeriodIsBounded : Prop :=
  (∀ T s : Bits, 1 ≤ s.length → T.length = s.length →
    (∃ m p, 1 ≤ p ∧ p ≤ 2 ^ s.length - 1 ∧ ∀ k, m ≤ k → stepsFrom T (k + p) s = stepsFrom T k s) ∧
    (T[0]? = some true →
      ∃ p, 1 ≤ p ∧ p ≤ 2 ^ s.length - 1 ∧ ∀ k, stepsFrom T (k + p) s = stepsFrom T k s)) ∧
  stepsFrom [true, true, false, false] 15 [false, true, false, false] = [false, true, false, false] ∧
  (∀ p, 1 ≤ p → p < 15 →
    stepsFrom [true, true, false, false] p [false, true, false, false] ≠ [false, true, false, false]) ∧
  ∀ v : Bits, v.length = 4 → v ≠ [false, false, false, false] →
    ∃ k, k < 15 ∧ stepsFrom [true, true, false, false] k [false, true, false, false] = v

/-! ### The combiner (spec/41_combiner.md) -/

/-- R100, R102, R103: the selector, and that it agrees with either input in 6 of the 8 rows and with the
control bit in 4. -/
def Obligations.CombinerSelectsAndIsUnbalanced : Prop :=
  (∀ b0 b1 c : Bit, combineBits b0 b1 c = (if c then b1 else b0)) ∧
  let rows := [false, true].flatMap fun b0 => [false, true].flatMap fun b1 =>
    [false, true].map fun c => (b0, b1, c)
  rows.length = 8 ∧
  (rows.countP fun (b0, b1, c) => combineBits b0 b1 c == b0) = 6 ∧
  (rows.countP fun (b0, b1, c) => combineBits b0 b1 c == b1) = 6 ∧
  (rows.countP fun (b0, b1, c) => combineBits b0 b1 c == c) = 4 ∧
  (rows.countP fun (b0, b1, c) => combineBits b0 b1 c) = 4

/-- The algebraic form of the combiner, which R104 of 41_combiner.md marks as derived. -/
def Obligations.CombinerHasItsAlgebraicForm : Prop :=
  ∀ b0 b1 c : Bit, combineBits b0 b1 c = ((c && b1) ^^ (!c && b0)) ∧
    combineBits b0 b1 c = (b0 ^^ (c && (b0 ^^ b1)))

/-- R101: COMBINE, with its word: responds the selected bit and writes nothing. -/
def Obligations.CombineRespondsTheSelectedBit : Prop :=
  ∀ (s : State) (c : CoreState) (b0 b1 ctl : Bit), s.core = some c →
    decode (joinWord ⟨5, 0, 0, 0, BitVec.ofNat 16 (4 * b0.toNat + 2 * b1.toNat + ctl.toNat)⟩)
      = .ok (.combine b0 b1 ctl) ∧
    exec (.combine b0 b1 ctl) s = .next (completed s c (some (.bit (if ctl then b1 else b0))))

/-! ### The keystream generator (spec/42_generator.md) -/

/-- R110, R111: GSTEP, with its word: every register advances once, the bit is selected from the elements 0
before the step, each trace gains its record, nothing is cleared, `LEN` grows by one. -/
def Obligations.GstepAdvancesInLockstep : Prop :=
  ∀ (s : State) (c : CoreState), s.core = some c → CoreInv c →
    fitsCapacity s.params (c.KS.length + 1) = true →
    decode (joinWord ⟨6, 0, 0, 0, 0⟩) = .ok .gstep ∧
    ∃ (z o0 o1 oc : Bit),
      c.S.g0[0]? = some o0 ∧ c.S.g1[0]? = some o1 ∧ c.S.ct[0]? = some oc ∧
      z = (if oc then o1 else o0) ∧
      exec .gstep s = .next (completed s
        { c with
          S := ⟨nxt c.cfg.T.g0 c.S.g0, nxt c.cfg.T.g1 c.S.g1, nxt c.cfg.T.ct c.S.ct⟩
          LEN := c.LEN + 1
          KS := c.KS ++ [z]
          TR := ⟨c.TR.g0 ++ [⟨o0, c.S.g0, nxt c.cfg.T.g0 c.S.g0⟩],
                 c.TR.g1 ++ [⟨o1, c.S.g1, nxt c.cfg.T.g1 c.S.g1⟩],
                 c.TR.ct ++ [⟨oc, c.S.ct, nxt c.cfg.T.ct c.S.ct⟩]⟩ }
        (some (.bit z)))

/-- R112: GENERATE, with its word: BadSteps for 0; otherwise `n` steps from the current registers, `KS` and
the traces replaced by the `n` new elements, `LEN` plus `n`, nothing else changed. -/
def Obligations.GenerateReplacesTheKeystream : Prop :=
  ∀ (s : State) (c : CoreState) (n : Nat), s.core = some c → CoreInv c →
    (n < 2 ^ 16 → decode (joinWord ⟨7, 0, 0, 0, BitVec.ofNat 16 n⟩) = .ok (.generate n)) ∧
    (n = 0 → exec (.generate n) s = .next (aborted s c .badSteps)) ∧
    (1 ≤ n → fitsCapacity s.params n = true →
      ∃ d : CoreState, exec (.generate n) s = .next (completed s d none) ∧
        d.cfg = c.cfg ∧ d.IN = c.IN ∧ d.OUT = c.OUT ∧ d.LEN = c.LEN + n ∧
        d.KS.length = n ∧
        (∀ r, (d.TR.get r).length = n ∧ d.S.get r = stepsFrom (c.cfg.T.get r) n (c.S.get r)) ∧
        ∀ k < n, ∃ t0 t1 tc : StepRec,
          d.TR.g0[k]? = some t0 ∧ d.TR.g1[k]? = some t1 ∧ d.TR.ct[k]? = some tc ∧
          t0.old = stepsFrom c.cfg.T.g0 k c.S.g0 ∧ t0.new = nxt c.cfg.T.g0 t0.old ∧ t0.old[0]? = some t0.out ∧
          t1.old = stepsFrom c.cfg.T.g1 k c.S.g1 ∧ t1.new = nxt c.cfg.T.g1 t1.old ∧ t1.old[0]? = some t1.out ∧
          tc.old = stepsFrom c.cfg.T.ct k c.S.ct ∧ tc.new = nxt c.cfg.T.ct tc.old ∧ tc.old[0]? = some tc.out ∧
          d.KS[k]? = some (if tc.out then t1.out else t0.out))

/-- R113: GRESET, with its word: every register from its configured state, `LEN` to 0, every buffer kept;
idempotent; the three LRESET differ from it in `LEN` alone. -/
def Obligations.GresetRestoresEveryRegister : Prop :=
  ∀ (s : State) (c : CoreState), s.core = some c →
    decode (joinWord ⟨8, 0, 0, 0, 0⟩) = .ok .greset ∧
    exec .greset s = .next (completed s { c with S := c.cfg.I, LEN := 0 } none) ∧
    (∃ t, execAll [.greset, .greset] s = .next t ∧ t.core = some { c with S := c.cfg.I, LEN := 0 }) ∧
    ∃ t d, execAll [.lreset .g0, .lreset .g1, .lreset .ct] s = .next t ∧ t.core = some d ∧
      d.LEN = c.LEN ∧ { d with LEN := 0 } = { c with S := c.cfg.I, LEN := 0 }

/-- R114: the three register steps of a lockstep step, taken in any order or all at once and then joined, are
the lockstep step: the same core and the same bit `z`. The output bit of a register does not depend on the
steps of the others. -/
def Obligations.LockstepOrderIsImmaterial : Prop :=
  ∀ (c : CoreState) (order : List Reg), order.Perm [.g0, .g1, .ct] →
    joinStep (stepInOrder order c) = lockstep c ∧
    joinStep (stepAtOnce c) = lockstep c ∧
    stepInOrder order c = stepAtOnce c ∧
    ∀ r r' : Reg, r ≠ r' → (stepTraced (stepTraced c r').1 r).2 = (stepTraced c r).2

/-- The corner case (b) of R111: GENERATE `n` leaves the core that `n` GSTEP leave from the cleared one. -/
def Obligations.GenerateIsClearThenGsteps : Prop :=
  ∀ (s : State) (c : CoreState) (n : Nat), s.core = some c → CoreInv c → 1 ≤ n →
    fitsCapacity s.params n = true →
    ∃ t t' : State, exec (.generate n) s = .next t ∧
      execAll (List.replicate n .gstep)
        { s with core := some { c with KS := [], TR := ⟨[], [], []⟩ } } = .next t' ∧
      t.core = t'.core

/-- The corner case (c) of R112: a second GENERATE without a reset continues the stream. -/
def Obligations.SecondGenerateContinuesTheStream : Prop :=
  ∀ (s : State) (c : CoreState) (a b : Nat), s.core = some c → CoreInv c → 1 ≤ a → 1 ≤ b →
    fitsCapacity s.params (a + b) = true →
    ∃ (t u : State) (d e : CoreState),
      execAll [.generate a, .generate b] s = .next t ∧ t.core = some d ∧
      exec (.generate (a + b)) s = .next u ∧ u.core = some e ∧
      d.KS = e.KS.drop a ∧ (∀ r, d.TR.get r = (e.TR.get r).drop a) ∧ d.S = e.S ∧ d.LEN = e.LEN

/-- R116 of 42_generator.md, in the form it marks as derived: after GRESET and GENERATE `n` the keystream, the traces and the registers depend on nothing but
the configuration and `n`. -/
def Obligations.RegeneratedKeystreamIsDetermined : Prop :=
  ∀ (s s' : State) (c c' : CoreState) (n : Nat), s.core = some c → s'.core = some c' → c.cfg = c'.cfg →
    1 ≤ n → fitsCapacity s.params n = true → fitsCapacity s'.params n = true →
    ∃ (t t' : State) (d d' : CoreState),
      execAll [.greset, .generate n] s = .next t ∧ t.core = some d ∧
      execAll [.greset, .generate n] s' = .next t' ∧ t'.core = some d' ∧
      d.KS = d'.KS ∧ d.TR = d'.TR ∧ d.S = d'.S

/-- R117 of 42_generator.md, which the spec marks as derived: the keystream formula from the configured initial states, and the bits that no tap set changes. -/
def Obligations.KeystreamFormula : Prop :=
  ∀ (s : State) (c : CoreState) (n : Nat), s.core = some c → CoreInv c → 1 ≤ n →
    fitsCapacity s.params n = true →
    ∃ (t : State) (d : CoreState),
      execAll [.greset, .generate n] s = .next t ∧ t.core = some d ∧
      (∀ k : Nat, k < n →
        d.KS[k]? = some (combineBits (outputAt c.cfg.T.g0 c.cfg.I.g0 k) (outputAt c.cfg.T.g1 c.cfg.I.g1 k)
          (outputAt c.cfg.T.ct c.cfg.I.ct k)) ∧
        ∀ r, (d.TR.get r)[k]?.map StepRec.old = some (stepsFrom (c.cfg.T.get r) k (c.cfg.I.get r))) ∧
      (c.cfg.I.ct[0]? = some true → d.KS[0]? = c.cfg.I.g1[0]?) ∧
      (c.cfg.I.ct[0]? = some false → d.KS[0]? = c.cfg.I.g0[0]?) ∧
      (c.cfg.I = ⟨[false, true, false, false], [false, true, true, true], [false, true, true, false]⟩ →
        4 ≤ n → d.KS.take 4 = [false, true, true, false])

/-- The remark on flags of R112: after GENERATE `n` the warning of a register is on exactly when the register
was all-zero at some moment of the command. -/
def Obligations.GenerateWarnsExactlyWhenAllZeroOccurred : Prop :=
  ∀ (s : State) (c : CoreState) (n : Nat) (r : Reg), s.core = some c → CoreInv c → 1 ≤ n →
    fitsCapacity s.params n = true →
    ∃ (t : State) (w : PerReg Bit), exec (.generate n) s = .next t ∧
      t.outputs = s.outputs ++ [.response ⟨.ok, w, none⟩] ∧
      (w.get r = true ↔
        ∃ k ≤ n, stepsFrom (c.cfg.T.get r) k (c.S.get r) = List.replicate c.cfg.W false)

/-- R188, its first two sentences about the keystream: with the control register all-zero it is the output
of G0; with a generator all-zero it is 0 wherever that generator is selected. -/
def Obligations.AllZeroRegisterShapesTheKeystream : Prop :=
  ∀ (s : State) (c : CoreState) (n : Nat), s.core = some c → CoreInv c → 1 ≤ n →
    fitsCapacity s.params n = true →
    ∃ (t : State) (d : CoreState), exec (.generate n) s = .next t ∧ t.core = some d ∧
      (c.S.ct = List.replicate c.cfg.W false → d.KS = rawOutputs d .g0) ∧
      (c.S.g0 = List.replicate c.cfg.W false →
        ∀ k : Nat, (rawOutputs d .ct)[k]? = some false → d.KS[k]? = some false) ∧
      (c.S.g1 = List.replicate c.cfg.W false →
        ∀ k : Nat, (rawOutputs d .ct)[k]? = some true → d.KS[k]? = some false)

/-! ### The XOR stage (spec/43_cipher.md) -/

/-- R130: the XOR of two sequences of one length has that length, and is taken position by position. -/
def Obligations.XorSequenceIsPositionwise : Prop :=
  ∀ p k : Bits, p.length = k.length →
    (xorseq p k).length = p.length ∧
    ∀ (i : Nat) (a b : Bit), p[i]? = some a → k[i]? = some b → (xorseq p k)[i]? = some (a ^^ b)

/-- R135 of 43_cipher.md: applying twice returns the input; and the two laws that the rule marks as derived. -/
def Obligations.XorSequenceIsSelfInverse : Prop :=
  ∀ p k : Bits, p.length = k.length →
    xorseq (xorseq p k) k = p ∧ xorseq p (xorseq p k) = k ∧ xorseq p p = List.replicate p.length false

/-- R131: INCLR, with its word. -/
def Obligations.InclrEmptiesTheInput : Prop :=
  ∀ (s : State) (c : CoreState), s.core = some c →
    decode (joinWord ⟨9, 0, 0, 0, 0⟩) = .ok .inclr ∧
    exec .inclr s = .next (completed s { c with IN := [] } none)

/-- R132: INLD, with its word. -/
def Obligations.InldAppendsToTheInput : Prop :=
  ∀ (s : State) (c : CoreState) (v : Bits), s.core = some c → 1 ≤ v.length → v.length ≤ 16 →
    fitsCapacity s.params (c.IN.length + v.length) = true →
    decode (joinWord ⟨10, 0, BitVec.ofNat 5 v.length, 0, BitVec.ofNat 16 (pk v)⟩) = .ok (.inld v) ∧
    exec (.inld v) s = .next (completed s { c with IN := c.IN ++ v } none)

/-- R133: APPLY, with its word: LengthMismatch with nothing written, else `OUT` alone is replaced by the XOR
of the two buffers, position by position. -/
def Obligations.ApplyXorsInputAndKeystream : Prop :=
  ∀ (s : State) (c : CoreState), s.core = some c →
    decode (joinWord ⟨11, 0, 0, 0, 0⟩) = .ok .apply ∧
    (c.IN.length ≠ c.KS.length → exec .apply s = .next (aborted s c .lengthMismatch)) ∧
    (c.IN.length = c.KS.length → fitsCapacity s.params c.IN.length = true →
      ∃ out : Bits, exec .apply s = .next (completed s { c with OUT := out } none) ∧
        out.length = c.IN.length ∧
        ∀ (i : Nat) (a b : Bit), c.IN[i]? = some a → c.KS[i]? = some b → out[i]? = some (a ^^ b))

/-- R134: CRYPT, with its word: BadSteps first, then LengthMismatch, both before any register steps;
otherwise every effect of GENERATE `n` and then APPLY. -/
def Obligations.CryptIsGenerateThenApply : Prop :=
  ∀ (s : State) (c : CoreState) (n : Nat), s.core = some c → CoreInv c →
    (n < 2 ^ 16 → decode (joinWord ⟨12, 0, 0, 0, BitVec.ofNat 16 n⟩) = .ok (.crypt n)) ∧
    (n = 0 → exec (.crypt n) s = .next (aborted s c .badSteps)) ∧
    (1 ≤ n → c.IN.length ≠ n → exec (.crypt n) s = .next (aborted s c .lengthMismatch)) ∧
    (1 ≤ n → c.IN.length = n → fitsCapacity s.params n = true →
      ∃ (d : CoreState) (t : State), exec (.crypt n) s = .next (completed s d none) ∧
        execAll [.generate n, .apply] s = .next t ∧ t.core = some d)

/-- R136 of 43_cipher.md, in the general form it marks as derived: encrypting and then decrypting, on any core of equal configuration, returns the plaintext; with the
reference initial states the first four bits of the reference ciphertext are 1101. -/
def Obligations.DecryptionReturnsThePlaintext : Prop :=
  ∀ (s s' : State) (c c' : CoreState) (p : Bits), s.core = some c → s'.core = some c' → c.cfg = c'.cfg →
    CoreInv c → 1 ≤ p.length → fitsCapacity s.params p.length = true →
    fitsCapacity s'.params p.length = true →
    ∃ (t : State) (d : CoreState), execAll (encryptCommands p) s = .next t ∧ t.core = some d ∧
      (∃ (t' : State) (d' : CoreState),
        execAll (encryptCommands d.OUT) s' = .next t' ∧ t'.core = some d' ∧ d'.OUT = p) ∧
      (c.cfg.I = ⟨[false, true, false, false], [false, true, true, true], [false, true, true, false]⟩ →
        p = Config.defaultPlaintext → d.OUT.take 4 = [true, true, false, true])

/-- The pseudo-instruction INSET of 30_encoding.md R70: its commands can be encoded, and they leave the whole
bit string in `IN` and change nothing else of the core. -/
def Obligations.InsetSuppliesTheWholeInput : Prop :=
  ∀ (s : State) (c : CoreState) (b : Bits), s.core = some c → 1 ≤ b.length →
    fitsCapacity s.params b.length = true →
    (∀ i ∈ insetCommands b, i.wf = true) ∧
    ∃ t, execAll (insetCommands b) s = .next t ∧ t.core = some { c with IN := b }

/-! ### Rules of the whole machine -/

/-- 10_state.md R22: a register that a command changes is one the rule says it may write. -/
def Obligations.OnlyTheListedCommandsWriteARegister : Prop :=
  ∀ (i : Instr) (s t : State) (c : CoreState) (r : Reg), s.core = some c → exec i s = .next t →
    mayWriteReg r i = false → ∃ d, t.core = some d ∧ d.S.get r = c.S.get r

/-- 20_memory.md R46: a buffer that a command changes is one the table says it writes. -/
def Obligations.OnlyTheListedCommandsWriteABuffer : Prop :=
  ∀ (i : Instr) (s t : State) (c : CoreState), s.core = some c → exec i s = .next t →
    ∃ d, t.core = some d ∧
      (mayWriteKeystream i = false → d.KS = c.KS ∧ d.TR = c.TR) ∧
      (mayWriteInput i = false → d.IN = c.IN) ∧
      (mayWriteOutput i = false → d.OUT = c.OUT)

/-- 10_state.md R23: what every command does to `LEN`. -/
def Obligations.StepCounterCountsLockstepSteps : Prop :=
  ∀ (i : Instr) (s t : State) (c : CoreState), s.core = some c → exec i s = .next t →
    ∃ d resp, t.core = some d ∧ t.outputs = s.outputs ++ [.response resp] ∧
      (resp.err = .ok → d.LEN = lenAfter c.LEN i) ∧ (resp.err ≠ .ok → d.LEN = c.LEN)

/-- 10_state.md R24: no command writes the latched configuration; nor does one touch the implementation
parameters or what the host presents. -/
def Obligations.CommandsKeepTheConfiguration : Prop :=
  ∀ (i : Instr) (s t : State) (c : CoreState), s.core = some c → exec i s = .next t →
    t.params = s.params ∧ t.port = s.port ∧ ∃ d, t.core = some d ∧ d.cfg = c.cfg

/-- 10_state.md R26 and R29: a command answers exactly one response; its `warn` bits are 1 exactly for the
registers that are all-zero after it; a value is present exactly when the command has one and is OK. -/
def Obligations.EveryCommandGivesOneResponse : Prop :=
  ∀ (i : Instr) (s t : State), exec i s = .next t →
    ∃ d resp, t.core = some d ∧ t.outputs = s.outputs ++ [.response resp] ∧
      (∀ r, resp.warn.get r = true ↔ ∀ b ∈ d.S.get r, b = false) ∧
      (resp.val.isSome = true ↔ resp.err = .ok ∧ hasValue i = true)

/-- 60_exceptions.md R158: a faulting command leaves everything as before but for its response, the core
takes the next command, and the same word in the state it leaves faults again. -/
def Obligations.FaultLeavesTheStateUntouched : Prop :=
  ∀ (w : CommandWord) (s t : State) (c : CoreState) (resp : Response), s.core = some c →
    runCommand w s = .next t → t.outputs = s.outputs ++ [.response resp] → resp.err ≠ .ok →
    t = aborted s c resp.err ∧ resp.warn = warnBits c ∧ resp.val = none ∧
      runCommand w t = .next (aborted t c resp.err)

/-- 60_exceptions.md R152, R153, R154, R157 (and the LLOAD half of R151): which fault a command word raises,
in the order of their priority. -/
def Obligations.FaultsAreRaisedExactlyAsStated : Prop :=
  ∀ (w : CommandWord) (s t : State) (c : CoreState) (resp : Response), s.core = some c →
    runCommand w s = .next t → t.outputs = s.outputs ++ [.response resp] →
    (resp.err = .illegalCommand ↔ ∀ i, decode w ≠ .ok i) ∧
    (resp.err = .badSteps ↔ decode w = .ok (.generate 0) ∨ decode w = .ok (.crypt 0)) ∧
    (resp.err = .lengthMismatch ↔
      (decode w = .ok .apply ∧ c.IN.length ≠ c.KS.length) ∨
      ∃ n, n ≠ 0 ∧ decode w = .ok (.crypt n) ∧ c.IN.length ≠ n) ∧
    (resp.err = .configError ↔
      (∃ r v, decode w = .ok (.lload r (.vector v)) ∧ v.length ≠ c.cfg.W) ∨
      ∃ r len data, decode w = .ok (.lload r (.unassembled len data))) ∧
    (resp.err ≠ .ok → t.core = some c ∧ resp.warn = warnBits c)

/-- From R48 of 20_memory.md with R133 and R134 of 43_cipher.md and R158 and R159 of 60_exceptions.md: with a
finite BUF_CAP, on a core whose buffers are within it, exactly the commands that would make a buffer longer than
it are refused: GSTEP on full buffers, GENERATE of too many steps, INLD of too many bits. APPLY and CRYPT make no
buffer longer than `IN` is, so neither is ever refused; and no command is refused otherwise. That a CRYPT of too
many steps with an `IN` of another length faults, and is not refused, rests on the model's order, faults before
the capacity (log 10). -/
def Obligations.OverfullBufferIsRefused : Prop :=
  ∀ (s : State) (c : CoreState) (cap : Nat), s.core = some c → CoreInv c → WithinCapacity s.params c →
    s.params.bufCap = some cap →
    (∀ i : Instr, exec i s = .refused .bufferCapacity ↔
      (i = .gstep ∧ cap < c.KS.length + 1) ∨
      (∃ n, i = .generate n ∧ cap < n) ∨
      ∃ v, i = .inld v ∧ cap < c.IN.length + v.length) ∧
    ∀ (i : Instr) (e : Refusal), exec i s = .refused e → e = .bufferCapacity

/-! ### Construction, the command port and runs -/

/-- R8, R33, R180: construction gives a machine exactly for the well-formed configurations, with the values of
R33; presented to a core, built or not, it replaces everything of the core there was (of the widths 1 to 16
that R72 takes as a premise); a configuration that fails `cfg_ok` never becomes a machine. -/
def Obligations.ConstructionLatchesAndResets : Prop :=
  ∀ (s : State) (raw : RawConfig),
    (cfgOk raw = true ↔ 1 ≤ raw.width ∧ ∀ r, (∀ i ∈ raw.taps.get r, i < raw.width) ∧
      (raw.init.get r).length = raw.width) ∧
    (cfgOk raw = true → ∃ d : CoreState,
      construct raw = .ok d ∧
      (raw.width ≤ 16 →
        constructEvent raw s = .next { s with core := some d, outputs := s.outputs ++ [.built] }) ∧
      d.cfg.W = raw.width ∧ d.cfg.I = raw.init ∧ d.S = raw.init ∧ d.LEN = 0 ∧
      d.KS = [] ∧ d.IN = [] ∧ d.OUT = [] ∧
      ∀ r, d.TR.get r = [] ∧ (d.cfg.T.get r).length = raw.width ∧
        (zeroFlag d r = true ↔ ∀ b ∈ raw.init.get r, b = false) ∧
        ∀ i, (d.cfg.T.get r)[i]? = some true ↔ i ∈ raw.taps.get r) ∧
    (cfgOk raw = false →
      construct raw = .error .configError ∧ ∀ t, constructEvent raw s = .next t → t.core = none)

/-- R181: a failed construction reports ConfigError and leaves no machine, whatever the core was before; an
unbuilt core has no step for any command, of any word. -/
def Obligations.FailedConstructionLeavesNoMachine : Prop :=
  ∀ s : State,
    (∀ raw : RawConfig, cfgOk raw = false →
      constructEvent raw s =
        .next { s with core := none, outputs := s.outputs ++ [.constructionError] }) ∧
    (s.core = none →
      (∀ i, exec i s = .fault .unbuiltCore) ∧ ∀ w, runCommand w s = .fault .unbuiltCore)

/-- The premise `W <= 16` of construction on the encoded interface (30_encoding.md R72): a construction gives no
core of another width, and the machine refuses one that asks for it. That it is a refusal is the model's choice
(log 12). -/
def Obligations.ConstructedWidthsAreEncodable : Prop :=
  ∀ (s : State) (raw : RawConfig),
    (∀ (t : State) (d : CoreState), constructEvent raw s = .next t → t.core = some d →
      1 ≤ d.cfg.W ∧ d.cfg.W ≤ 16) ∧
    (cfgOk raw = true → 16 < raw.width → constructEvent raw s = .refused .widthBeyondEncoding)

/-- What State.reset holds: the core constructed with the reference configuration, with the values R33 and R7
give. That reset is this construction is the model's choice (log 1), as are the empty port and output list
(logs 3 and 5). -/
def Obligations.ResetIsTheReferenceConstruction : Prop :=
  ∃ c, construct Config.reference = .ok c ∧ State.reset = ⟨some c, ⟨none, none⟩, [], []⟩ ∧
    c.cfg.W = 4 ∧
    c.cfg.T.g0 = [true, true, false, false] ∧
    c.S = ⟨[false, true, false, false], [false, true, true, true], [false, true, true, false]⟩ ∧
    c.cfg.I = c.S ∧ c.LEN = 0 ∧ c.KS = [] ∧ c.IN = [] ∧ c.OUT = [] ∧ c.TR = ⟨[], [], []⟩ ∧
    warnBits c = ⟨false, false, false⟩

/-- A step runs the decoded command: it takes the word from the front of what the host presents and is the
execution of its command on what is left; a word placed by `withFetchWord` is the very next; any other word
and a construction are taken in the same way. That the host's actions wait in a list is the model's choice
(log 3). -/
def Obligations.StepRunsTheDecodedCommand : Prop :=
  ∀ (s : State) (rest : List HostAction),
    (∀ (c : CoreState) (w : CommandWord) (i : Instr), s.core = some c → s.port = .command w :: rest →
      decode w = .ok i →
      step s = exec i { s with port := rest } ∧ step (s.withFetchWord 32 w.toNat) = exec i s) ∧
    (∀ w, s.port = .command w :: rest → step s = runCommand w { s with port := rest }) ∧
    ∀ raw, s.port = .construct raw :: rest → step s = constructEvent raw { s with port := rest }

/-- With nothing presented a step changes nothing (the model's choice, log 4). -/
def Obligations.IdleStepChangesNothing : Prop :=
  ∀ s : State, s.port = [] → step s = .next s

/-- 20_memory.md R49: the run of a list of presented commands is the left-to-right composition of the
commands, whatever the core is. That the commands wait in a list is the model's choice (log 3). -/
def Obligations.RunIsTheCompositionOfCommands : Prop :=
  ∀ (is : List Instr) (s : State), (∀ i ∈ is, i.wf = true) →
    core.run is.length (presenting is s) = execAll is { s with port := [] }

/-- 70_reset_and_hazards.md R193: with unbounded buffers a built core never stops, and every action the host
presents is answered by exactly one output. The lists of actions and outputs, and the idle step with nothing
presented, are the model's choices (logs 3, 4 and 5). -/
def Obligations.BuiltCoreNeverStops : Prop :=
  ∀ (k : Nat) (s : State) (c : CoreState), s.core = some c → s.params.bufCap = none →
    onlyGoodConstructions s.port →
    ∃ t : State, core.run k s = .next t ∧ t.core.isSome = true ∧
      t.port = s.port.drop k ∧ t.outputs.length = s.outputs.length + min k s.port.length

/-- R32 and R28, with R48 and R72: every step keeps the invariant, from every state that meets it. -/
def Obligations.EveryStepKeepsTheInvariant : Prop :=
  ∀ s t : State, Inv s → step s = .next t → Inv t

/-- The state after reset, the model's choice (log 1), meets the invariant, whatever the open tap sets are. -/
def Obligations.ResetMeetsTheInvariant : Prop := Inv State.reset

/-! ### Responses and the observation port -/

/-- R71: the five fields of the response port, for vectors that fit it. -/
def Obligations.ResponsePortFields : Prop :=
  ([ErrorKind.ok, .configError, .lengthMismatch, .illegalCommand, .badSteps].map errorCode = [0, 1, 2, 3, 4]) ∧
  (∀ w : PerReg Bit, (packWarn w).getLsbD 2 = w.g0 ∧ (packWarn w).getLsbD 1 = w.g1 ∧
    (packWarn w).getLsbD 0 = w.ct) ∧
  (∀ (v : Bits) (i : Nat), v.length ≤ 16 → i < 16 →
    (packVector v).getLsbD i = (if i < v.length then v[v.length - 1 - i]?.getD false else false)) ∧
  ∀ w : PerReg Bit,
    (∀ t : StepRec, encodeResponse ⟨.ok, w, some (.stepped t)⟩ =
      ⟨0, packWarn w, t.out, packVector t.old, packVector t.new⟩) ∧
    (∀ v, encodeResponse ⟨.ok, w, some (.vector v)⟩ = ⟨0, packWarn w, false, packVector v, 0⟩) ∧
    (∀ b, encodeResponse ⟨.ok, w, some (.bit b)⟩ = ⟨0, packWarn w, b, 0, 0⟩) ∧
    encodeResponse ⟨.ok, w, none⟩ = ⟨0, packWarn w, false, 0, 0⟩ ∧
    ∀ (e : ErrorKind) (val : Option Value), e ≠ .ok →
      encodeResponse ⟨e, w, val⟩ = ⟨errorCode e, packWarn w, false, 0, 0⟩

/-- 10_state.md R30: what the observation port shows of a built core: everything; an unbuilt core has nothing to
show (70_reset_and_hazards.md R181). The clauses on a step counter of finite width LEN_W, that the count is shown
as it is while it fits and that what is shown is always below `2^LEN_W`, are the model's choice (log 11). -/
def Obligations.ObservationShowsTheCore : Prop :=
  ∀ s : State,
    (∀ c : CoreState, s.core = some c →
      ∃ o, observe s = some o ∧ o.W = c.cfg.W ∧ o.T = c.cfg.T ∧ o.I = c.cfg.I ∧ o.S = c.S ∧
        o.KS = c.KS ∧ o.IN = c.IN ∧ o.OUT = c.OUT ∧ o.TR = c.TR ∧
        o.lenKS = c.KS.length ∧ o.lenIN = c.IN.length ∧ o.lenOUT = c.OUT.length ∧
        (∀ r, o.lenTR.get r = (c.TR.get r).length ∧ (o.ZERO.get r = true ↔ ∀ b ∈ c.S.get r, b = false)) ∧
        (s.params.lenWidth = none → o.LEN = c.LEN) ∧
        ∀ k, s.params.lenWidth = some k → (c.LEN < 2 ^ k → o.LEN = c.LEN) ∧ o.LEN < 2 ^ k) ∧
    (s.core = none → observe s = none)

/-- The packed step record of 10_state.md R28: `2W+1` bits, the output bit first, then the old and the new
state. -/
def Obligations.PackedRecordHoldsOutOldNew : Prop :=
  ∀ (W : Nat) (t : StepRec), t.old.length = W → t.new.length = W →
    packRecord W t < 2 ^ (2 * W + 1) ∧ unpk (2 * W + 1) (packRecord W t) = t.out :: t.old ++ t.new
end

