-- ==== Sys2Proof/Laws/State.lean ====
section
/-!
SUPPORT. The small lemmas of the state records: one for each field and update, all true by `rfl`, and the
read-after-write laws of a per-register record.
-/

namespace Sys2Proof

@[simp] theorem PerReg.get_g0 {α : Type} (p : PerReg α) : p.get .g0 = p.g0 := rfl
@[simp] theorem PerReg.get_g1 {α : Type} (p : PerReg α) : p.get .g1 = p.g1 := rfl
@[simp] theorem PerReg.get_ct {α : Type} (p : PerReg α) : p.get .ct = p.ct := rfl
@[simp] theorem PerReg.set_g0 {α : Type} (p : PerReg α) (v : α) : p.set .g0 v = ⟨v, p.g1, p.ct⟩ := rfl
@[simp] theorem PerReg.set_g1 {α : Type} (p : PerReg α) (v : α) : p.set .g1 v = ⟨p.g0, v, p.ct⟩ := rfl
@[simp] theorem PerReg.set_ct {α : Type} (p : PerReg α) (v : α) : p.set .ct v = ⟨p.g0, p.g1, v⟩ := rfl

/-- A read after a write to the same register. -/
@[simp] theorem PerReg.get_set_same {α : Type} (p : PerReg α) (r : Reg) (v : α) : (p.set r v).get r = v := by
  cases r <;> rfl

/-- A write to one register leaves the others. -/
theorem PerReg.get_set_other {α : Type} (p : PerReg α) {r r' : Reg} (v : α) (h : r' ≠ r) :
    (p.set r v).get r' = p.get r' := by
  cases r <;> cases r' <;> first | rfl | exact absurd rfl h

@[simp] theorem PerReg.set_get {α : Type} (p : PerReg α) (r : Reg) : p.set r (p.get r) = p := by
  cases r <;> rfl

@[simp] theorem PerReg.set_set {α : Type} (p : PerReg α) (r : Reg) (v w : α) :
    (p.set r v).set r w = p.set r w := by
  cases r <;> rfl

@[simp] theorem PerReg.get_ofFn {α : Type} (f : Reg → α) (r : Reg) : (PerReg.ofFn f).get r = f r := by
  cases r <;> rfl

/-- Two records that agree at every register are equal. -/
theorem PerReg.ext_get {α : Type} {p q : PerReg α} (h : ∀ r, p.get r = q.get r) : p = q := by
  obtain ⟨a0, a1, a2⟩ := p
  obtain ⟨b0, b1, b2⟩ := q
  obtain rfl : a0 = b0 := h .g0
  obtain rfl : a1 = b1 := h .g1
  obtain rfl : a2 = b2 := h .ct
  rfl

namespace Machine

@[simp] theorem setReg_cfg (c : CoreState) (r : Reg) (v : Bits) : (setReg c r v).cfg = c.cfg := rfl
@[simp] theorem setReg_S (c : CoreState) (r : Reg) (v : Bits) : (setReg c r v).S = c.S.set r v := rfl
@[simp] theorem setReg_LEN (c : CoreState) (r : Reg) (v : Bits) : (setReg c r v).LEN = c.LEN := rfl
@[simp] theorem setReg_KS (c : CoreState) (r : Reg) (v : Bits) : (setReg c r v).KS = c.KS := rfl
@[simp] theorem setReg_IN (c : CoreState) (r : Reg) (v : Bits) : (setReg c r v).IN = c.IN := rfl
@[simp] theorem setReg_OUT (c : CoreState) (r : Reg) (v : Bits) : (setReg c r v).OUT = c.OUT := rfl
@[simp] theorem setReg_TR (c : CoreState) (r : Reg) (v : Bits) : (setReg c r v).TR = c.TR := rfl

@[simp] theorem clearKeystream_cfg (c : CoreState) : (clearKeystream c).cfg = c.cfg := rfl
@[simp] theorem clearKeystream_S (c : CoreState) : (clearKeystream c).S = c.S := rfl
@[simp] theorem clearKeystream_LEN (c : CoreState) : (clearKeystream c).LEN = c.LEN := rfl
@[simp] theorem clearKeystream_KS (c : CoreState) : (clearKeystream c).KS = [] := rfl
@[simp] theorem clearKeystream_IN (c : CoreState) : (clearKeystream c).IN = c.IN := rfl
@[simp] theorem clearKeystream_OUT (c : CoreState) : (clearKeystream c).OUT = c.OUT := rfl
@[simp] theorem clearKeystream_TR (c : CoreState) : (clearKeystream c).TR = ⟨[], [], []⟩ := rfl

@[simp] theorem freshCore_cfg (cfg : Configuration) : (freshCore cfg).cfg = cfg := rfl
@[simp] theorem freshCore_S (cfg : Configuration) : (freshCore cfg).S = cfg.I := rfl
@[simp] theorem freshCore_LEN (cfg : Configuration) : (freshCore cfg).LEN = 0 := rfl
@[simp] theorem freshCore_KS (cfg : Configuration) : (freshCore cfg).KS = [] := rfl
@[simp] theorem freshCore_IN (cfg : Configuration) : (freshCore cfg).IN = [] := rfl
@[simp] theorem freshCore_OUT (cfg : Configuration) : (freshCore cfg).OUT = [] := rfl
@[simp] theorem freshCore_TR (cfg : Configuration) : (freshCore cfg).TR = ⟨[], [], []⟩ := rfl

@[simp] theorem latch_W (raw : RawConfig) : (latch raw).W = raw.width := rfl
@[simp] theorem latch_I (raw : RawConfig) : (latch raw).I = raw.init := rfl
@[simp] theorem latch_T_get (raw : RawConfig) (r : Reg) :
    (latch raw).T.get r = tapMask raw.width (raw.taps.get r) := by cases r <;> rfl

@[simp] theorem completed_core (s : State) (c : CoreState) (v : Option Value) :
    (completed s c v).core = some c := rfl
@[simp] theorem completed_params (s : State) (c : CoreState) (v : Option Value) :
    (completed s c v).params = s.params := rfl
@[simp] theorem completed_port (s : State) (c : CoreState) (v : Option Value) :
    (completed s c v).port = s.port := rfl
@[simp] theorem completed_outputs (s : State) (c : CoreState) (v : Option Value) :
    (completed s c v).outputs = s.outputs ++ [.response ⟨.ok, warnBits c, v⟩] := rfl

@[simp] theorem aborted_core (s : State) (c : CoreState) (e : ErrorKind) : (aborted s c e).core = s.core := rfl
@[simp] theorem aborted_params (s : State) (c : CoreState) (e : ErrorKind) :
    (aborted s c e).params = s.params := rfl
@[simp] theorem aborted_port (s : State) (c : CoreState) (e : ErrorKind) : (aborted s c e).port = s.port := rfl
@[simp] theorem aborted_outputs (s : State) (c : CoreState) (e : ErrorKind) :
    (aborted s c e).outputs = s.outputs ++ [.response ⟨e, warnBits c, none⟩] := rfl

@[simp] theorem present_core (a : HostAction) (s : State) : (present a s).core = s.core := rfl
@[simp] theorem present_params (a : HostAction) (s : State) : (present a s).params = s.params := rfl
@[simp] theorem present_port (a : HostAction) (s : State) : (present a s).port = a :: s.port := rfl
@[simp] theorem present_outputs (a : HostAction) (s : State) : (present a s).outputs = s.outputs := rfl

@[simp] theorem warnBits_get (c : CoreState) (r : Reg) : (warnBits c).get r = allZero (c.S.get r) := by
  cases r <;> rfl

end Machine

end Sys2Proof
end

