-- ==== Sys2Proof/Laws/Ops.lean ====
section
/-!
SUPPORT. One lemma for each shared operation that says everything it can do; proofs about a meaning cite
these instead of unfolding the operation.
-/

namespace Sys2Proof.Machine

/-- The buffer primitives (20_memory.md R47): an append puts its element at the old length and keeps every
element that was there. -/
theorem bufRead_bufAppend {α : Type} (b : List α) (e : α) (k : Nat) :
    bufRead (bufAppend b e) k = if k < b.length then bufRead b k else if k = b.length then some e else none := by
  unfold bufRead bufAppend
  rw [List.getElem?_append]
  split
  · rfl
  · split
    · subst k; simp
    · rw [List.getElem?_eq_none]; simp; omega

@[simp] theorem bufClear_eq {α : Type} (b : List α) : bufClear b = [] := rfl

@[simp] theorem appendAll_eq (b v : Bits) : appendAll b v = b ++ v := by
  induction v generalizing b with
  | nil => simp [appendAll]
  | cons e v ih => simp [appendAll, ih, bufAppend]

/-- A command on a built core is the command run on that core. -/
@[simp] theorem onCore_built {s : State} {c : CoreState} (h : s.core = some c)
    (run : CoreState → Host.Outcome State Fault Refusal) : onCore s run = run c := by
  simp [onCore, h]

/-- A command on an unbuilt core has no step (70_reset_and_hazards.md R181). -/
@[simp] theorem onCore_unbuilt {s : State} (h : s.core = none)
    (run : CoreState → Host.Outcome State Fault Refusal) : onCore s run = .fault .unbuiltCore := by
  simp [onCore, h]

/-- If a command answers a next state, the core was built and the command answered it there. -/
theorem onCore_next {s t : State} {run : CoreState → Host.Outcome State Fault Refusal}
    (h : onCore s run = .next t) : ∃ c, s.core = some c ∧ run c = .next t := by
  unfold onCore at h
  split at h
  · cases h
  · exact ⟨_, by assumption, h⟩

theorem respond_eq (s : State) (c : CoreState) (v : Option Value) : respond s c v = .next (completed s c v) := rfl

/-- Taking a fault changes the list of responses and nothing else (60_exceptions.md R158). -/
theorem raiseFault_eq {s : State} {c : CoreState} (h : s.core = some c) (e : ErrorKind) :
    raiseFault s c e = .next (aborted s c e) := by
  simp [raiseFault, aborted, h]

theorem withCapacity_fits {s : State} {n : Nat} (h : fitsCapacity s.params n = true)
    (run : Host.Outcome State Fault Refusal) : withCapacity s n run = run := by
  simp [withCapacity, h]

/-- If a command under a capacity check answers a next state, the buffer fits. -/
theorem withCapacity_next {s t : State} {n : Nat} {run : Host.Outcome State Fault Refusal}
    (h : withCapacity s n run = .next t) : fitsCapacity s.params n = true ∧ run = .next t := by
  unfold withCapacity at h
  split at h
  · exact ⟨by assumption, h⟩
  · cases h

/-- Capacity is monotone: what fits a longer buffer fits a shorter one. -/
theorem fitsCapacity_le {p : Params} {m n : Nat} (h : fitsCapacity p n = true) (hmn : m ≤ n) :
    fitsCapacity p m = true := by
  unfold fitsCapacity at *
  split at * <;> simp_all
  omega

@[simp] theorem nxt_length {T s : Bits} (h : 1 ≤ s.length) : (nxt T s).length = s.length := by
  simp [nxt]
  omega

/-- One iteration of the loop of a lockstep step. -/
theorem stepTraced_eq (c : CoreState) (r : Reg) : stepTraced c r =
    ({ c with
        S := c.S.set r (nxt (c.cfg.T.get r) (c.S.get r))
        TR := c.TR.set r (c.TR.get r ++ [stepRecord (c.cfg.T.get r) (c.S.get r)]) },
      outbit (c.S.get r)) := rfl

/-- The keystream bit of a lockstep step, from the states before it (42_generator.md R110). -/
theorem lockstep_bit (c : CoreState) :
    (lockstep c).2 = combineBits (outbit c.S.g0) (outbit c.S.g1) (outbit c.S.ct) := rfl

/-- A lockstep step in closed form: every register advances once, each trace gains its record, the keystream
its bit, and the counter one; the configuration, `IN` and `OUT` stay (42_generator.md R110). -/
theorem lockstep_core (c : CoreState) : (lockstep c).1 =
    { c with
      S := PerReg.ofFn fun r => nxt (c.cfg.T.get r) (c.S.get r)
      TR := PerReg.ofFn fun r => c.TR.get r ++ [stepRecord (c.cfg.T.get r) (c.S.get r)]
      KS := c.KS ++ [combineBits (outbit c.S.g0) (outbit c.S.g1) (outbit c.S.ct)]
      LEN := c.LEN + 1 } := rfl

/-- The pieces that no number of lockstep steps touches, and the counter. -/
theorem locksteps_frame (n : Nat) (c : CoreState) :
    (locksteps n c).cfg = c.cfg ∧ (locksteps n c).IN = c.IN ∧ (locksteps n c).OUT = c.OUT ∧
      (locksteps n c).LEN = c.LEN + n := by
  induction n generalizing c with
  | zero => simp [locksteps]
  | succ n ih =>
    have h := ih (lockstep c).1
    simp only [lockstep_core] at h
    simp only [locksteps, lockstep_core, h, true_and]
    omega

/-- The registers after `n` lockstep steps: each stepped `n` times on its own (42_generator.md R114). -/
theorem locksteps_S (n : Nat) (c : CoreState) (r : Reg) :
    (locksteps n c).S.get r = stepsFrom (c.cfg.T.get r) n (c.S.get r) := by
  induction n generalizing c with
  | zero => rfl
  | succ n ih => simp [locksteps, ih, lockstep_core, stepsFrom]

/-- The traces after `n` lockstep steps: `n` records more, one for each step (10_state.md R28). -/
theorem locksteps_TR (n : Nat) (c : CoreState) (r : Reg) :
    (locksteps n c).TR.get r = c.TR.get r ++ (List.range n).map fun k =>
      stepRecord (c.cfg.T.get r) (stepsFrom (c.cfg.T.get r) k (c.S.get r)) := by
  induction n generalizing c with
  | zero => simp [locksteps]
  | succ n ih =>
    simp [locksteps, ih, lockstep_core, List.range_succ_eq_map, stepsFrom]

/-- The keystream after `n` lockstep steps: `n` bits more, each the combination of that step's output bits
(42_generator.md R110). -/
theorem locksteps_KS (n : Nat) (c : CoreState) :
    (locksteps n c).KS = c.KS ++ (List.range n).map fun k =>
      combineBits (outputAt c.cfg.T.g0 c.S.g0 k) (outputAt c.cfg.T.g1 c.S.g1 k)
        (outputAt c.cfg.T.ct c.S.ct k) := by
  induction n generalizing c with
  | zero => simp [locksteps]
  | succ n ih =>
    simp [locksteps, ih, lockstep_core, List.range_succ_eq_map, stepsFrom, outputAt, PerReg.ofFn]

theorem stepsFrom_length {T : Bits} (n : Nat) {s : Bits} (h : 1 ≤ s.length) :
    (stepsFrom T n s).length = s.length := by
  induction n generalizing s with
  | zero => rfl
  | succ n ih => rw [stepsFrom, ih] <;> simp [nxt_length h, h]

/-- Stepping `m + n` times is stepping `m` times and then `n` times. -/
theorem stepsFrom_add (T : Bits) (m n : Nat) (s : Bits) :
    stepsFrom T (m + n) s = stepsFrom T n (stepsFrom T m s) := by
  induction m generalizing s with
  | zero => simp [stepsFrom]
  | succ m ih => rw [Nat.succ_add, stepsFrom, ih, stepsFrom]

end Sys2Proof.Machine
end

