-- ==== Sys2Proof/Laws/Codec.lean ====
section
/-!
SUPPORT. The lemmas of packing, fields and register numbers that statements about the encoding rest on.
-/

namespace Sys2Proof.Machine

/-- A packed vector fits its length. -/
theorem pk_lt (v : Bits) : pk v < 2 ^ v.length := by
  induction v with
  | nil => simp [pk]
  | cons b v ih =>
    simp only [pk, List.length_cons, Nat.pow_succ]
    cases b <;> simp <;> omega

@[simp] theorem unpk_length (n x : Nat) : (unpk n x).length = n := by
  induction n with
  | zero => rfl
  | succ n ih => simp [unpk, ih]

/-- Only the bits below `n` matter to `unpk n`. -/
theorem unpk_congr {n x y : Nat} (h : ∀ i < n, x.testBit i = y.testBit i) : unpk n x = unpk n y := by
  induction n with
  | zero => rfl
  | succ n ih => simp [unpk, ih (fun i hi => h i (by omega)), h n (by omega)]

/-- Unpacking a packed vector gives it back (00_scope.md R10). -/
theorem unpk_pk (v : Bits) : unpk v.length (pk v) = v := by
  induction v with
  | nil => rfl
  | cons b v ih =>
    have hlt := pk_lt v
    have h1 : ∀ i < v.length, (b.toNat * 2 ^ v.length + pk v).testBit i = (pk v).testBit i := by
      intro i hi
      rw [Nat.mul_comm, Nat.testBit_two_pow_mul_add _ hlt]
      simp [hi]
    have h2 : (b.toNat * 2 ^ v.length + pk v).testBit v.length = b := by
      rw [Nat.mul_comm, Nat.testBit_two_pow_mul_add _ hlt]
      cases b <;> simp
    simp only [List.length_cons, pk, unpk, h2, unpk_congr h1, ih]

/-- Packing an unpacked number that fits gives it back (00_scope.md R10). -/
theorem pk_unpk {n x : Nat} (h : x < 2 ^ n) : pk (unpk n x) = x := by
  induction n generalizing x with
  | zero => simp [unpk, pk]; omega
  | succ n ih =>
    have h1 : unpk n x = unpk n (x % 2 ^ n) := unpk_congr (fun i hi => by simp [Nat.testBit_mod_two_pow, hi])
    have h2 : x.testBit n = decide (2 ^ n ≤ x) := by
      rw [Nat.testBit_eq_decide_div_mod_eq]
      have hp : 0 < 2 ^ n := Nat.two_pow_pos n
      by_cases hx : 2 ^ n ≤ x
      · have : x / 2 ^ n = 1 := by
          apply Nat.div_eq_of_lt_le <;> omega
        simp [this, hx]
      · have : x / 2 ^ n = 0 := Nat.div_eq_of_lt (by omega)
        simp [this, hx]
    simp only [unpk, pk, unpk_length, h1, ih (Nat.mod_lt x (Nat.two_pow_pos n)), h2]
    have hp : 0 < 2 ^ n := Nat.two_pow_pos n
    by_cases hx : 2 ^ n ≤ x
    · have hs : x < 2 ^ n + 2 ^ n := by rw [Nat.pow_succ] at h; omega
      rw [Nat.mod_eq_sub_mod hx, Nat.mod_eq_of_lt (by omega)]
      simp only [hx, decide_true, Bool.toNat_true]
      omega
    · rw [Nat.mod_eq_of_lt (by omega)]
      simp [hx]

/-- Every bit of a word made from fields lies in one of them (30_encoding.md R60). -/
theorem getLsbD_joinWord (f : Fields) (i : Nat) : (joinWord f).getLsbD i =
    if i < 16 then f.data.getLsbD i
    else if i - 16 < 5 then f.zero.getLsbD (i - 16)
    else if i - 21 < 5 then f.len.getLsbD (i - 21)
    else if i - 26 < 2 then f.sel.getLsbD (i - 26)
    else f.op.getLsbD (i - 28) := by
  have h : (joinWord f).getLsbD i = (f.op ++ f.sel ++ f.len ++ f.zero ++ f.data).getLsbD i := rfl
  simp only [h, BitVec.getLsbD_append]
  simp only [Nat.sub_sub]

/-- The fields of a word made from fields. -/
@[simp] theorem splitWord_joinWord (f : Fields) : splitWord (joinWord f) = f := by
  obtain ⟨op, sel, len, zero, data⟩ := f
  simp only [splitWord, Fields.mk.injEq]
  refine ⟨?_, ?_, ?_, ?_, ?_⟩ <;> apply BitVec.eq_of_getLsbD_eq <;> intro i hi <;>
    simp only [BitVec.getLsbD_extractLsb', getLsbD_joinWord, hi, decide_true, Bool.true_and]
  · have h1 : ¬ 28 + i < 16 := by omega
    have h2 : ¬ 28 + i - 16 < 5 := by omega
    have h3 : ¬ 28 + i - 21 < 5 := by omega
    have h4 : ¬ 28 + i - 26 < 2 := by omega
    have h5 : 28 + i - 28 = i := by omega
    simp [h1, h2, h3, h4, h5]
  · have h1 : ¬ 26 + i < 16 := by omega
    have h2 : ¬ 26 + i - 16 < 5 := by omega
    have h3 : ¬ 26 + i - 21 < 5 := by omega
    have h5 : 26 + i - 26 = i := by omega
    simp [h1, h2, h3, h5, hi]
  · have h1 : ¬ 21 + i < 16 := by omega
    have h2 : ¬ 21 + i - 16 < 5 := by omega
    have h5 : 21 + i - 21 = i := by omega
    simp [h1, h2, h5, hi]
  · have h1 : ¬ 16 + i < 16 := by omega
    have h5 : 16 + i - 16 = i := by omega
    simp [h1, h5, hi]
  · simp [hi]

/-- The word made from its fields. -/
@[simp] theorem joinWord_splitWord (w : CommandWord) : joinWord (splitWord w) = w := by
  apply BitVec.eq_of_getLsbD_eq
  intro i hi
  rw [getLsbD_joinWord]
  simp only [splitWord, BitVec.getLsbD_extractLsb']
  repeat' split
  all_goals first
    | (rw [show 0 + i = i by omega]; simp_all)
    | (rw [show 16 + (i - 16) = i by omega]; simp_all)
    | (rw [show 21 + (i - 21) = i by omega]; simp_all)
    | (rw [show 26 + (i - 26) = i by omega]; simp_all)
    | (rw [show 28 + (i - 28) = i by omega]; simp; omega)

/-- Words with equal fields are equal, and only they. -/
theorem joinWord_inj {f g : Fields} : joinWord f = joinWord g ↔ f = g := by
  constructor
  · intro h
    rw [← splitWord_joinWord f, h, splitWord_joinWord]
  · rintro rfl
    rfl

/-- Masking a word masks each of its fields. -/
theorem joinWord_and (f g : Fields) : joinWord f &&& joinWord g =
    joinWord ⟨f.op &&& g.op, f.sel &&& g.sel, f.len &&& g.len, f.zero &&& g.zero, f.data &&& g.data⟩ := by
  apply BitVec.eq_of_getLsbD_eq
  intro i hi
  simp only [BitVec.getLsbD_and, getLsbD_joinWord]
  split_ifs <;> rfl

@[simp] theorem selectReg_regNumber (r : Reg) : selectReg (regNumber r) = some r := by
  cases r <;> decide

/-- A register number is read from no other `sel` field. -/
theorem regNumber_of_selectReg {sel : BitVec 2} {r : Reg} (h : selectReg sel = some r) : regNumber r = sel := by
  revert sel r
  decide +revert

/-- Element `i` of an unpacked number is its bit `n-1-i` (00_scope.md R10). -/
theorem getElem?_unpk (n x i : Nat) (h : i < n) : (unpk n x)[i]? = some (x.testBit (n - 1 - i)) := by
  induction n generalizing i with
  | zero => omega
  | succ n ih =>
    cases i with
    | zero => simp [unpk]
    | succ i =>
      rw [unpk, List.getElem?_cons_succ, ih i (by omega)]
      congr 2
      omega

/-- `len` assembles a vector exactly from 1 to 16 (30_encoding.md R63). -/
theorem assembles_iff (len : BitVec 5) : assembles len = true ↔ 1 ≤ len.toNat ∧ len.toNat ≤ 16 := by
  simp [assembles, Nat.one_le_iff_ne_zero]

/-- The packed form of a vector that a word can carry fits `data`. -/
theorem pk_lt_of_vectorOk {v : Bits} (h : vectorOk v = true) : pk v < 2 ^ 16 := by
  simp only [vectorOk, Bool.and_eq_true, decide_eq_true_eq] at h
  exact Nat.lt_of_lt_of_le (pk_lt v) (Nat.pow_le_pow_right (by decide) h.2)

/-- The decoder reads the fields of a word made from fields. -/
theorem decode_joinWord (f : Fields) : decode (joinWord f) =
    match f.op.toNat with
    | 1 => decodeReg f .lstep
    | 2 => decodeReg f .lreset
    | 3 => decodeLoad f
    | 4 => decodeReg f .lread
    | 5 => decodeCombine f
    | 6 => decodePlain f .gstep
    | 7 => decodeCount f .generate
    | 8 => decodePlain f .greset
    | 9 => decodePlain f .inclr
    | 10 => decodeInput f
    | 11 => decodePlain f .apply
    | 12 => decodeCount f .crypt
    | _ => .error .reservedOpcode := by
  simp only [decode, splitWord_joinWord] <;> rfl

/-- What a row with one register operand reads. -/
theorem decodeReg_ok {f : Fields} {mk : Reg → Instr} {i : Instr}
    (h : decodeReg f mk = .ok i) :
    ∃ r, i = mk r ∧ f.sel = regNumber r ∧ f.len = 0 ∧ f.zero = 0 ∧ f.data = 0 := by
  unfold decodeReg at h
  split at h
  · rename_i hz
    simp [Fields.lenZero] at hz
    split at h
    · rename_i r hr
      cases h
      exact ⟨r, rfl, (regNumber_of_selectReg hr).symm, hz.1.1, hz.1.2, hz.2⟩
    · cases h
  · cases h

/-- What a row without operands reads. -/
theorem decodePlain_ok {f : Fields} {i j : Instr}
    (h : decodePlain f j = .ok i) :
    i = j ∧ f.sel = 0 ∧ f.len = 0 ∧ f.zero = 0 ∧ f.data = 0 := by
  unfold decodePlain at h
  split at h
  · rename_i hz
    simp [Fields.lenZero, Fields.selZero] at hz
    cases h
    simp [hz]
  · cases h

/-- What a row with a count reads. -/
theorem decodeCount_ok {f : Fields} {mk : Nat → Instr} {i : Instr}
    (h : decodeCount f mk = .ok i) :
    i = mk f.data.toNat ∧ f.sel = 0 ∧ f.len = 0 ∧ f.zero = 0 := by
  unfold decodeCount at h
  split at h
  · rename_i hz
    simp [Fields.lenZero, Fields.selZero] at hz
    cases h
    simp [hz]
  · cases h

/-- What LLOAD reads. -/
theorem decodeLoad_ok {f : Fields} {i : Instr}
    (h : decodeLoad f = .ok i) :
    ∃ r, i = .lload r f.loadOperand ∧ f.sel = regNumber r ∧ f.zero = 0 ∧ f.dataFits = true := by
  unfold decodeLoad at h
  split at h
  · rename_i hz
    split at h
    · split at h
      · rename_i r hr hd
        cases h
        exact ⟨r, rfl, (regNumber_of_selectReg hr).symm, by simpa using hz, hd⟩
      · cases h
    · cases h
  · cases h

/-- What INLD reads. -/
theorem decodeInput_ok {f : Fields} {i : Instr}
    (h : decodeInput f = .ok i) :
    i = .inld f.vector ∧ f.sel = 0 ∧ f.zero = 0 ∧ 1 ≤ f.len.toNat ∧ f.len.toNat ≤ 16 ∧ f.dataFits = true := by
  unfold decodeInput at h
  split at h
  · split at h
    · split at h
      · rename_i hs hl hd
        cases h
        simp [Fields.selZero] at hs
        exact ⟨rfl, hs.1, hs.2, ((assembles_iff _).1 hl).1, ((assembles_iff _).1 hl).2, hd⟩
      · cases h
    · cases h
  · cases h

/-- What COMBINE reads. -/
theorem decodeCombine_ok {f : Fields} {i : Instr}
    (h : decodeCombine f = .ok i) :
    i = .combine (f.data.getLsbD 2) (f.data.getLsbD 1) (f.data.getLsbD 0) ∧ f.sel = 0 ∧ f.len = 0 ∧
      f.zero = 0 ∧ f.data >>> 3 = 0 := by
  unfold decodeCombine at h
  split at h
  · rename_i hz
    simp [Fields.lenZero, Fields.selZero] at hz
    cases h
    simp [hz]
  · cases h

/-- Data that fits its length is below the power of two. -/
theorem data_lt_of_dataFits {f : Fields} (h : f.dataFits = true) : f.data.toNat < 2 ^ min f.len.toNat 16 := by
  simp only [Fields.dataFits, dataBelow, beq_iff_eq] at h
  have h2 := congrArg BitVec.toNat h
  simp only [BitVec.toNat_ushiftRight, Nat.shiftRight_eq_div_pow] at h2
  rcases Nat.div_eq_zero_iff.1 h2 with h | h
  · have := Nat.two_pow_pos (min f.len.toNat 16); omega
  · exact h

end Sys2Proof.Machine
end

