-- ==== Sys2Proof/Laws/Exec.lean ====
section
/-!
SUPPORT. What a command can do, said once: on a built core `exec` completes with `effect` and `resultValue`,
is refused for want of capacity, or aborts with `errorOf` (`exec_built`); and if it answers a next state, it
is one of two (`exec_next`). The keystream of GENERATE and CRYPT in closed form.
-/

namespace Sys2Proof.Machine

/-- The core after a command that completes. -/
def effect (i : Instr) (c : CoreState) : CoreState :=
  match i with
  | .lstep r => setReg c r (nxt (c.cfg.T.get r) (c.S.get r))
  | .lreset r => setReg c r (c.cfg.I.get r)
  | .lload r (.vector v) => setReg c r v
  | .lload _ (.unassembled _ _) => c
  | .lread _ => c
  | .combine _ _ _ => c
  | .gstep => (lockstep c).1
  | .generate n => keystream n c
  | .greset => { c with S := c.cfg.I, LEN := 0 }
  | .inclr => { c with IN := [] }
  | .inld v => { c with IN := c.IN ++ v }
  | .apply => { c with OUT := xorseq c.IN c.KS }
  | .crypt n => { keystream n c with OUT := xorseq c.IN (keystream n c).KS }

/-- The value in the response of a command that completes. -/
def resultValue (i : Instr) (c : CoreState) : Option Value :=
  match i with
  | .lstep r => some (.stepped (stepRecord (c.cfg.T.get r) (c.S.get r)))
  | .lreset _ => none
  | .lload _ _ => none
  | .lread r => some (.vector (c.S.get r))
  | .combine b0 b1 ctl => some (.bit (combineBits b0 b1 ctl))
  | .gstep => some (.bit (lockstep c).2)
  | .generate _ => none
  | .greset => none
  | .inclr => none
  | .inld _ => none
  | .apply => none
  | .crypt _ => none

/-- The fault a command raises on a core, or OK. -/
def errorOf (i : Instr) (c : CoreState) : ErrorKind :=
  match i with
  | .lstep _ => .ok
  | .lreset _ => .ok
  | .lload _ (.vector v) => if v.length = c.cfg.W then .ok else .configError
  | .lload _ (.unassembled _ _) => .configError
  | .lread _ => .ok
  | .combine _ _ _ => .ok
  | .gstep => .ok
  | .generate n => if n = 0 then .badSteps else .ok
  | .greset => .ok
  | .inclr => .ok
  | .inld _ => .ok
  | .apply => if c.IN.length = c.KS.length then .ok else .lengthMismatch
  | .crypt n => if n = 0 then .badSteps else if c.IN.length = n then .ok else .lengthMismatch

/-- The length of the longest buffer a command makes. -/
def neededCapacity (i : Instr) (c : CoreState) : Nat :=
  match i with
  | .lstep _ => 0
  | .lreset _ => 0
  | .lload _ _ => 0
  | .lread _ => 0
  | .combine _ _ _ => 0
  | .gstep => grownLength c
  | .generate n => n
  | .greset => 0
  | .inclr => 0
  | .inld v => c.IN.length + v.length
  | .apply => c.IN.length
  | .crypt n => n

@[simp] theorem fitsCapacity_zero (p : Params) : fitsCapacity p 0 = true := by
  unfold fitsCapacity
  split <;> simp

/-- Everything `exec` does on a built core. -/
theorem exec_built (i : Instr) {s : State} {c : CoreState} (hc : s.core = some c) :
    exec i s =
      if errorOf i c = .ok then
        withCapacity s (neededCapacity i c) (.next (completed s (effect i c) (resultValue i c)))
      else .next (aborted s c (errorOf i c)) := by
  cases i with
  | lstep r => simp [exec, execLstep, errorOf, neededCapacity, withCapacity, hc, respond_eq, effect,
      resultValue, stepRecord]
  | lreset r => simp [exec, execLreset, errorOf, neededCapacity, withCapacity, hc, respond_eq, effect,
      resultValue]
  | lload r v =>
    cases v with
    | vector v =>
      by_cases h : v.length = c.cfg.W <;> simp [exec, execLload, errorOf, neededCapacity, withCapacity, hc, h,
        respond_eq, raiseFault_eq hc, effect, resultValue]
    | unassembled len data => simp [exec, execLload, errorOf, hc, raiseFault_eq hc]
  | lread r => simp [exec, execLread, errorOf, neededCapacity, withCapacity, hc, respond_eq, effect,
      resultValue]
  | combine b0 b1 ctl => simp [exec, execCombine, errorOf, neededCapacity, withCapacity, hc, respond_eq,
      effect, resultValue]
  | gstep => simp [exec, execGstep, errorOf, neededCapacity, hc, respond_eq, effect, resultValue]
  | generate n =>
    by_cases h : n = 0 <;> simp [exec, execGenerate, errorOf, neededCapacity, hc, h, respond_eq,
      raiseFault_eq hc, effect, resultValue]
  | greset => simp [exec, execGreset, errorOf, neededCapacity, withCapacity, hc, respond_eq, effect,
      resultValue]
  | inclr => simp [exec, execInclr, errorOf, neededCapacity, withCapacity, hc, respond_eq, effect,
      resultValue]
  | inld v => simp [exec, execInld, errorOf, neededCapacity, hc, respond_eq, effect, resultValue]
  | apply =>
    by_cases h : c.IN.length = c.KS.length <;> simp [exec, execApply, errorOf, neededCapacity, hc, h,
      respond_eq, raiseFault_eq hc, effect, resultValue]
  | crypt n =>
    by_cases h : n = 0 <;> by_cases h2 : c.IN.length = n <;> simp [exec, execCrypt, errorOf, neededCapacity,
      hc, h, h2, respond_eq, raiseFault_eq hc, effect, resultValue]

/-- An unbuilt core has no step for any command (70_reset_and_hazards.md R181). -/
theorem exec_unbuilt (i : Instr) {s : State} (hc : s.core = none) : exec i s = .fault .unbuiltCore := by
  cases i <;> exact onCore_unbuilt hc _

/-- A command that completes. -/
theorem exec_completes {i : Instr} {s : State} {c : CoreState} (hc : s.core = some c)
    (he : errorOf i c = .ok) (hf : fitsCapacity s.params (neededCapacity i c) = true) :
    exec i s = .next (completed s (effect i c) (resultValue i c)) := by
  rw [exec_built i hc, if_pos he, withCapacity_fits hf]

/-- A command that faults. -/
theorem exec_faults {i : Instr} {s : State} {c : CoreState} (hc : s.core = some c)
    (he : errorOf i c ≠ .ok) : exec i s = .next (aborted s c (errorOf i c)) := by
  rw [exec_built i hc, if_neg he]

/-- If a command answers a next state, it completed there or it aborted there. -/
theorem exec_next {i : Instr} {s t : State} (h : exec i s = .next t) :
    ∃ c, s.core = some c ∧
      ((errorOf i c = .ok ∧ fitsCapacity s.params (neededCapacity i c) = true ∧
          t = completed s (effect i c) (resultValue i c)) ∨
        (errorOf i c ≠ .ok ∧ t = aborted s c (errorOf i c))) := by
  cases hc : s.core with
  | none => rw [exec_unbuilt i hc] at h; cases h
  | some c =>
    refine ⟨c, rfl, ?_⟩
    rw [exec_built i hc] at h
    split at h
    · obtain ⟨hf, h⟩ := withCapacity_next h
      cases h
      exact .inl ⟨by assumption, hf, rfl⟩
    · cases h
      exact .inr ⟨by assumption, rfl⟩

/-- The pieces that `keystream` leaves, and the counter. -/
theorem keystream_frame (n : Nat) (c : CoreState) :
    (keystream n c).cfg = c.cfg ∧ (keystream n c).IN = c.IN ∧ (keystream n c).OUT = c.OUT ∧
      (keystream n c).LEN = c.LEN + n :=
  locksteps_frame n (clearKeystream c)

theorem keystream_S (n : Nat) (c : CoreState) (r : Reg) :
    (keystream n c).S.get r = stepsFrom (c.cfg.T.get r) n (c.S.get r) :=
  locksteps_S n (clearKeystream c) r

theorem keystream_TR (n : Nat) (c : CoreState) (r : Reg) :
    (keystream n c).TR.get r = (List.range n).map fun k =>
      stepRecord (c.cfg.T.get r) (stepsFrom (c.cfg.T.get r) k (c.S.get r)) := by
  rw [keystream, locksteps_TR]
  cases r <;> simp

theorem keystream_KS (n : Nat) (c : CoreState) :
    (keystream n c).KS = (List.range n).map fun k =>
      combineBits (outputAt c.cfg.T.g0 c.S.g0 k) (outputAt c.cfg.T.g1 c.S.g1 k)
        (outputAt c.cfg.T.ct c.S.ct k) := by
  rw [keystream, locksteps_KS]
  simp

theorem execAll_cons {i : Instr} {is : List Instr} {s t : State} (h : exec i s = .next t) :
    execAll (i :: is) s = execAll is t := by
  simp [execAll, h]

theorem execAll_append {is js : List Instr} {s t : State} (h : execAll is s = .next t) :
    execAll (is ++ js) s = execAll js t := by
  induction is generalizing s with
  | nil => cases h; rfl
  | cons i is ih =>
    simp only [List.cons_append, execAll] at *
    split at h
    · exact ih h
    · cases h
    · cases h

end Sys2Proof.Machine
end

