-- ==== Sys2Proof/Laws/PerInstr.lean ====
section
/-!
SUPPORT. Families of statements with one lemma for each command.

`EncodesInItsRow`: the word a command is written with carries the fixed bits of its row of the opcode map
(30_encoding.md R66), whatever the operands are, also those that no word can carry.
-/

namespace Sys2Proof.Laws.EncodesInItsRow

open Sys2Proof.Machine

/-- The word of the command meets `w & mask = match` of the row with the command's opcode (R66). -/
def Statement (i : Instr) : Prop :=
  ∃ row ∈ opcodeRows, row.opcode = i.opcode ∧ row.candidate (encode i) = true

/-- The bits a row fixes are the bits of its mask, field by field. -/
theorem candidate_encode {row : OpcodeRow} {pat mask : Fields} (i : Instr) (hp : row.pattern = joinWord pat)
    (hm : row.mask = joinWord mask) (h1 : i.opcode &&& mask.op = pat.op)
    (h2 : i.selField &&& mask.sel = pat.sel) (h3 : i.lenField &&& mask.len = pat.len)
    (h4 : 0 &&& mask.zero = pat.zero) (h5 : i.dataField &&& mask.data = pat.data) :
    row.candidate (encode i) = true := by
  rw [OpcodeRow.candidate, encode, hp, hm, joinWord_and, h1, h2, h3, h4, h5]
  exact beq_self_eq_true _

theorem lstep (r : Reg) : Statement (.lstep r) := by
  unfold Statement
  cases r <;> decide

theorem lreset (r : Reg) : Statement (.lreset r) := by
  unfold Statement
  cases r <;> decide

theorem lload (r : Reg) (v : LoadOperand) : Statement (.lload r v) :=
  ⟨⟨3, 0x30000000, 0xF01F0000, true, false, true⟩, by decide, rfl,
    candidate_encode (pat := ⟨3, 0, 0, 0, 0⟩) (mask := ⟨15, 0, 0, 31, 0⟩) _ (by decide) (by decide)
      (by simp [Instr.opcode]) BitVec.and_zero BitVec.and_zero (by decide) BitVec.and_zero⟩

theorem lread (r : Reg) : Statement (.lread r) := by
  unfold Statement
  cases r <;> decide

theorem combine (b0 b1 c : Bit) : Statement (.combine b0 b1 c) := by
  unfold Statement
  cases b0 <;> cases b1 <;> cases c <;> decide

theorem gstep : Statement .gstep := by
  unfold Statement
  decide

theorem generate (n : Nat) : Statement (.generate n) :=
  ⟨⟨7, 0x70000000, 0xFFFF0000, false, false, false⟩, by decide, rfl,
    candidate_encode (pat := ⟨7, 0, 0, 0, 0⟩) (mask := ⟨15, 3, 31, 31, 0⟩) _ (by decide) (by decide)
      (by simp [Instr.opcode]) (by simp [Instr.selField]) (by simp [Instr.lenField]) (by decide) BitVec.and_zero⟩

theorem greset : Statement .greset := by
  unfold Statement
  decide

theorem inclr : Statement .inclr := by
  unfold Statement
  decide

theorem inld (v : Bits) : Statement (.inld v) :=
  ⟨⟨10, 0xA0000000, 0xFC1F0000, false, true, true⟩, by decide, rfl,
    candidate_encode (pat := ⟨10, 0, 0, 0, 0⟩) (mask := ⟨15, 3, 0, 31, 0⟩) _ (by decide) (by decide)
      (by simp [Instr.opcode]) (by simp [Instr.selField]) BitVec.and_zero (by decide) BitVec.and_zero⟩

theorem apply : Statement .apply := by
  unfold Statement
  decide

theorem crypt (n : Nat) : Statement (.crypt n) :=
  ⟨⟨12, 0xC0000000, 0xFFFF0000, false, false, false⟩, by decide, rfl,
    candidate_encode (pat := ⟨12, 0, 0, 0, 0⟩) (mask := ⟨15, 3, 31, 31, 0⟩) _ (by decide) (by decide)
      (by simp [Instr.opcode]) (by simp [Instr.selField]) (by simp [Instr.lenField]) (by decide) BitVec.and_zero⟩

end Sys2Proof.Laws.EncodesInItsRow
end

