-- ==== Sys2Proof/Laws/Step.lean ====
section
/-!
SUPPORT. What a step can do, said once for each action of the host, and one more step of a run.
-/

namespace Sys2Proof.Machine

/-- With nothing presented a step is the state itself. -/
theorem step_waiting {s : State} (hp : s.port = []) : step s = .next s := by
  simp [step, takeAction, hp]

/-- A step on a command word. -/
theorem step_command {s : State} {w : CommandWord} {rest : List HostAction}
    (hp : s.port = .command w :: rest) : step s = runCommand w { s with port := rest } := by
  simp [step, takeAction, hp, runAction]

/-- A step on a construction. -/
theorem step_construct {s : State} {raw : RawConfig} {rest : List HostAction}
    (hp : s.port = .construct raw :: rest) : step s = constructEvent raw { s with port := rest } := by
  simp [step, takeAction, hp, runAction]

/-- A legal command word on a built core runs its command. -/
theorem runCommand_legal {s : State} {c : CoreState} {w : CommandWord} {i : Instr} (hc : s.core = some c)
    (hd : decode w = .ok i) : runCommand w s = exec i s := by
  simp [runCommand, hc, hd]

/-- An illegal command word on a built core raises IllegalCommand (60_exceptions.md R153). -/
theorem runCommand_illegal {s : State} {c : CoreState} {w : CommandWord} {e : Reject} (hc : s.core = some c)
    (hd : decode w = .error e) : runCommand w s = .next (aborted s c .illegalCommand) := by
  simp [runCommand, hc, hd, raiseFault_eq hc]

/-- A command word on an unbuilt core has no step. -/
theorem runCommand_unbuilt {s : State} (hc : s.core = none) (w : CommandWord) :
    runCommand w s = .fault .unbuiltCore := by
  simp [runCommand, hc]

/-- The three outcomes of a construction (70_reset_and_hazards.md R180, R181, 30_encoding.md R72). -/
theorem constructEvent_eq (raw : RawConfig) (s : State) :
    constructEvent raw s =
      if cfgOk raw then
        if raw.width ≤ 16 then
          .next { s with core := some (freshCore (latch raw)), outputs := s.outputs ++ [.built] }
        else .refused .widthBeyondEncoding
      else .next { s with core := none, outputs := s.outputs ++ [.constructionError] } := by
  unfold constructEvent construct widthEncodable
  by_cases h : cfgOk raw = true <;> simp [h]

/-- One more step of a run, of any machine. -/
theorem run_succ (M : Host.Core) (k : Nat) (s : M.State) :
    M.run (k + 1) s =
      (match M.step s with
      | .next t => M.run k t
      | .fault e => .fault e
      | .refused e => .refused e) := rfl

/-- A run whose first step answers a next state. -/
theorem run_of_next {k : Nat} {s t : State} (h : step s = .next t) : core.run (k + 1) s = core.run k t := by
  have h2 : core.step s = .next t := h
  rw [run_succ core k s, h2]

/-- A run whose first step stops with a fault. -/
theorem run_of_fault {k : Nat} {s : State} {e : Fault} (h : step s = .fault e) :
    core.run (k + 1) s = .fault e := by
  have h2 : core.step s = .fault e := h
  rw [run_succ core k s, h2]

/-- A run whose first step is refused. -/
theorem run_of_refused {k : Nat} {s : State} {e : Refusal} (h : step s = .refused e) :
    core.run (k + 1) s = .refused e := by
  have h2 : core.step s = .refused e := h
  rw [run_succ core k s, h2]

end Sys2Proof.Machine
end

