-- ==== Sys2Proof/Tests/Slice0.lean ====
section
/-!
SUPPORT. Tests, each a named theorem. Expected values come from spec/95_test_vectors.md (the vector is named
in the comment) or are written out by hand from the encodings of spec/30_encoding.md; and for each obligation
with hypotheses a witness that meets them.
-/

namespace Sys2Proof.Tests

open Sys2Proof Sys2Proof.Machine

/-! ### The test configurations of spec/95_test_vectors.md -/

/-- TC-A. -/
def rawA : RawConfig where
  width := 4
  taps := ⟨[0, 1], [0, 3], [0, 1]⟩
  init := ⟨[false, true, false, false], [false, true, true, true], [false, true, true, false]⟩

/-- TC-B. -/
def rawB : RawConfig where
  width := 3
  taps := ⟨[0, 1], [0, 2], [1]⟩
  init := ⟨[false, false, true], [true, true, true], [true, false, false]⟩

/-- The core constructed with TC-A. -/
def coreA : CoreState := freshCore (latch rawA)

/-- A state with this core and nothing presented. -/
def holding (c : CoreState) : State := ⟨some c, ⟨none, none⟩, [], []⟩

/-- The state with the TC-A core. -/
def stA : State := holding coreA

/-- The core of a next state. -/
def coreOf : Host.Outcome State Fault Refusal → Option CoreState
  | .next s => s.core
  | .fault _ => none
  | .refused _ => none

/-- The last answer of a next state. -/
def answerOf : Host.Outcome State Fault Refusal → Option Output
  | .next s => s.outputs.getLast?
  | .fault _ => none
  | .refused _ => none

/-- The refusal of an outcome. -/
def refusalOf : Host.Outcome State Fault Refusal → Option Refusal
  | .next _ => none
  | .fault _ => none
  | .refused e => some e

/-- The fault of an outcome. -/
def faultOf : Host.Outcome State Fault Refusal → Option Fault
  | .next _ => none
  | .fault e => some e
  | .refused _ => none

/-- No register is all-zero. -/
def quiet : PerReg Bit := ⟨false, false, false⟩

/-! ### Well-formedness: one ill-formed term for each check -/

theorem test_wf_lload_empty : (Instr.lload .g0 (.vector [])).wf = false := by decide
theorem test_wf_lload_too_long : (Instr.lload .g0 (.vector (List.replicate 17 false))).wf = false := by decide
theorem test_wf_lload_assembled : (Instr.lload .g0 (.unassembled 16 0)).wf = false := by decide
theorem test_wf_lload_data_above : (Instr.lload .g0 (.unassembled 0 1)).wf = false := by decide
theorem test_wf_inld_empty : (Instr.inld []).wf = false := by decide
theorem test_wf_inld_too_long : (Instr.inld (List.replicate 17 false)).wf = false := by decide
theorem test_wf_generate_too_big : (Instr.generate 65536).wf = false := by decide
theorem test_wf_crypt_too_big : (Instr.crypt 65536).wf = false := by decide

/-! ### Decoding: words written out field by field, `op sel len zero data` (R60), and V-E1 -/

theorem test_decode_lstep_ct : decode 0b0001_10_00000_00000_0000000000000000 = .ok (.lstep .ct) := by decide
theorem test_decode_lreset_g1 : decode 0b0010_01_00000_00000_0000000000000000 = .ok (.lreset .g1) := by decide
theorem test_decode_lload_g1 :
    decode 0b0011_01_00100_00000_0000000000000111 = .ok (.lload .g1 (.vector [false, true, true, true])) := by decide
theorem test_decode_lread_g0 : decode 0b0100_00_00000_00000_0000000000000000 = .ok (.lread .g0) := by decide
theorem test_decode_combine :
    decode 0b0101_00_00000_00000_0000000000000110 = .ok (.combine true true false) := by decide
theorem test_decode_gstep : decode 0b0110_00_00000_00000_0000000000000000 = .ok .gstep := by decide
theorem test_decode_generate :
    decode 0b0111_00_00000_00000_1111111111111111 = .ok (.generate 65535) := by decide
theorem test_decode_greset : decode 0b1000_00_00000_00000_0000000000000000 = .ok .greset := by decide
theorem test_decode_inclr : decode 0b1001_00_00000_00000_0000000000000000 = .ok .inclr := by decide
theorem test_decode_inld :
    decode 0b1010_00_10000_00000_1011010010011101 = .ok (.inld Config.defaultPlaintext) := by decide
theorem test_decode_apply : decode 0b1011_00_00000_00000_0000000000000000 = .ok .apply := by decide
theorem test_decode_crypt : decode 0b1100_00_00000_00000_0000000000010000 = .ok (.crypt 16) := by decide

/-- The illegal words of V-E1. -/
theorem test_decode_illegal :
    ([0x1C000000, 0x10000001, 0x10010000, 0x34800017, 0x50000008, 0x54000000, 0x70200000, 0xA0000001,
      0xA2200000, 0xA0400007, 0xB0000001, 0x00000000, 0xD0000000, 0xE0000000, 0xF0000000,
      0xFFFFFFFF] : List CommandWord).map (fun w => (decode w).isOk) = List.replicate 16 false := by decide

/-- LLOAD decodes with every `len` (R63): 0, and 31 (V-L6). -/
theorem test_decode_lload_len :
    decode 0x30000000 = .ok (.lload .g0 (.unassembled 0 0)) ∧
      decode 0x33E00000 = .ok (.lload .g0 (.unassembled 31 0)) := by decide

/-- V-L6: such a word raises ConfigError and changes nothing. -/
theorem test_lload_unassembled :
    step (stA.withFetchWord 32 0x33E00000) = .next (aborted stA coreA .configError) := by rfl

/-- V-X6: the words of `INLD 110` and of a 15-bit INLD. -/
theorem test_encode_inld :
    encode (.inld [true, true, false]) = 0xA0600006 ∧
      encode (.inld (Config.defaultPlaintext.take 14 ++ [false])) = 0xA1E05A4E := by decide

/-- P4: the word of `COMBINE 1,0,1`; P1: the word of `LLOAD G1, 1000`. -/
theorem test_encode_combine_lload :
    encode (.combine true false true) = 0x50000005 ∧
      encode (.lload .g1 (.vector [true, false, false, false])) = 0x34800008 := by decide

theorem test_decodeTableWord : decodeTableWord 32 0x70000010 = some (.generate 16) := by decide
theorem test_decodeTableWord_illegal : decodeTableWord 32 0x70010010 = none := by decide

/-! ### One register (40_lfsr.md) -/

/-- S1, the source's known-answer vector. -/
theorem test_lstep_known_answer :
    (coreOf (exec (.lstep .g0) stA)).map (·.S) =
        some ⟨[true, false, false, true], [false, true, true, true], [false, true, true, false]⟩ ∧
      answerOf (exec (.lstep .g0) stA) = some (.response ⟨.ok, quiet,
        some (.stepped ⟨false, [false, true, false, false], [true, false, false, true]⟩)⟩) := by decide

/-- V-L5 (d): without tap 0 a non-zero state steps to all-zero, and the warning goes on. -/
theorem test_lstep_falls_to_zero :
    answerOf (exec (.lstep .ct) (holding { coreA with
        cfg := { coreA.cfg with T := ⟨[], [], tapMask 4 [1]⟩ }
        S := { coreA.S with ct := [true, false, false, false] } })) =
      some (.response ⟨.ok, ⟨false, false, true⟩,
        some (.stepped ⟨true, [true, false, false, false], [false, false, false, false]⟩)⟩) := by decide

/-- V-L6: LRESET restores the configured vector, not the loaded one. -/
theorem test_lreset_restores :
    (coreOf (execAll [.lload .g1 (.vector [true, false, false, false]), .lreset .g1] stA)).map (·.S.g1) =
      some [false, true, true, true] := by decide

/-- V-L6: LLOAD writes the one register. -/
theorem test_lload_loads :
    (coreOf (exec (.lload .g1 (.vector [true, false, false, false])) stA)).map (·.S) =
      some ⟨[false, true, false, false], [true, false, false, false], [false, true, true, false]⟩ := by decide

/-- V-L6: a vector of the wrong length raises ConfigError and changes nothing. -/
theorem test_lload_wrong_length :
    exec (.lload .g1 (.vector [false, true, true])) stA = .next (aborted stA coreA .configError) := by rfl

/-- V-L6. -/
theorem test_lread_ct :
    answerOf (exec (.lread .ct) stA) =
      some (.response ⟨.ok, quiet, some (.vector [false, true, true, false])⟩) := by decide

/-! ### The combiner (V-C1) -/

theorem test_combine_011 :
    answerOf (exec (.combine false true true) stA) = some (.response ⟨.ok, quiet, some (.bit true)⟩) := by decide
theorem test_combine_101 :
    answerOf (exec (.combine true false true) stA) = some (.response ⟨.ok, quiet, some (.bit false)⟩) := by decide

/-! ### The generator -/

/-- V-G1, the first GSTEP: the bit is 0, and the registers are 1001, 1111, 1101. -/
theorem test_gstep_first :
    answerOf (exec .gstep stA) = some (.response ⟨.ok, quiet, some (.bit false)⟩) ∧
      (coreOf (exec .gstep stA)).map (·.S) =
        some ⟨[true, false, false, true], [true, true, true, true], [true, true, false, true]⟩ := by decide

/-- V-G1, the third GSTEP appends: the keystream is 011, the trace of G1 packs to 07F, 1FE, 1ED. -/
theorem test_gstep_appends :
    (coreOf (execAll [.gstep, .gstep, .gstep] stA)).map
        (fun c => (c.KS, c.LEN, c.TR.g1.map (packRecord 4))) =
      some ([false, true, true], 3, [0x07F, 0x1FE, 0x1ED]) := by decide

/-- V-G2 and V-G7: GENERATE 16, then GRESET keeps the keystream. -/
theorem test_generate_16 :
    (coreOf (exec (.generate 16) stA)).map (fun c => (pk c.KS, c.KS.length, c.S, c.LEN, c.TR.ct.length)) =
      some (0b0110111011111000, 16,
        ⟨[true, false, false, true], [true, true, true, true], [true, true, false, true]⟩, 16, 16) := by decide

/-- V-G4. -/
theorem test_generate_0 : exec (.generate 0) stA = .next (aborted stA coreA .badSteps) := by rfl

/-- V-G7. -/
theorem test_greset :
    (coreOf (execAll [.generate 4, .greset] stA)).map (fun c => (c.KS, c.LEN, c.S, c.TR.g0.length)) =
      some ([false, true, true, false], 0, rawA.init, 4) := by decide

/-- V-G8: TC-B, GENERATE 7, with the control register at zero after its first step. -/
theorem test_generate_width_3 :
    (coreOf (exec (.generate 7) (holding (freshCore (latch rawB))))).map
        (fun c => (pk c.KS, c.S, c.LEN, warnBits c)) =
      some (0b1010111, ⟨[false, false, true], [true, true, true], [false, false, false]⟩, 7,
        ⟨false, false, true⟩) := by decide

/-! ### The cipher -/

theorem test_inclr : (coreOf (exec .inclr (holding { coreA with IN := [true] }))).map (·.IN) = some [] := by decide

/-- V-X6. -/
theorem test_inld_appends :
    (coreOf (exec (.inld [true, true, false]) (holding { coreA with IN := [true, false] }))).map (·.IN) =
      some [true, false, true, true, false] := by decide

/-- V-X1, its first nibble. -/
theorem test_apply :
    (coreOf (exec .apply (holding { coreA with
        IN := [true, false, true, true], KS := [false, true, true, false] }))).map (·.OUT) =
      some [true, true, false, true] := by decide

/-- V-X2: lengths 0 and 4. -/
theorem test_apply_mismatch :
    answerOf (exec .apply (holding { coreA with KS := [false, true, true, false] })) =
      some (.response ⟨.lengthMismatch, quiet, none⟩) := by decide

/-- V-X4. -/
theorem test_crypt_16 :
    (coreOf (exec (.crypt 16) (holding { coreA with IN := Config.defaultPlaintext }))).map
        (fun c => (pk c.OUT, c.OUT.length, pk c.KS, c.LEN)) =
      some (0b1101101001100101, 16, 0b0110111011111000, 16) := by decide

/-- V-X5 and R157: BadSteps comes first, even when the lengths agree. -/
theorem test_crypt_0 : exec (.crypt 0) stA = .next (aborted stA coreA .badSteps) := by rfl

/-! ### Construction (V-K1), reset, and the command port -/

theorem test_construct_tcA : construct rawA = .ok coreA := by rfl

/-- The sequences of V-K1 and the tap masks 1100, 1001, 1100 of TC-A. -/
theorem test_construct_tcA_masks :
    coreA.cfg.T = ⟨[true, true, false, false], [true, false, false, true], [true, true, false, false]⟩ ∧
      packedTaps coreA .g0 = 0xC := by decide

theorem test_construct_bad_tap : cfgOk { rawA with taps := ⟨[0, 4], [0], [0]⟩ } = false := by decide
theorem test_construct_bad_init :
    cfgOk { rawA with init := ⟨[false, true, false], rawA.init.g1, rawA.init.ct⟩ } = false := by decide
theorem test_construct_width_0 : cfgOk ⟨0, ⟨[], [], []⟩, ⟨[], [], []⟩⟩ = false := by decide

/-- R72: the encoded interface has no width above 16. -/
theorem test_construct_too_wide :
    refusalOf (step (present (.construct ⟨17, ⟨[], [], []⟩,
      ⟨List.replicate 17 true, List.replicate 17 true, List.replicate 17 true⟩⟩) stA)) =
      some .widthBeyondEncoding := by decide

/-- The last row of V-K1: built, with every warning on. -/
theorem test_construct_all_zero :
    (coreOf (step (present (.construct ⟨4, ⟨[], [], []⟩,
        ⟨List.replicate 4 false, List.replicate 4 false, List.replicate 4 false⟩⟩) stA))).map warnBits =
      some ⟨true, true, true⟩ := by decide

/-- A step takes the placed word and runs it as the first command after reset (S10: LREAD G1 is 0111). -/
theorem test_step_first_command :
    answerOf (step (State.reset.withFetchWord 32 0x44000000)) =
      some (.response ⟨.ok, quiet, some (.vector [false, true, true, true])⟩) := by decide

/-- V-G6: from reset the first four keystream bits do not depend on the open tap sets. -/
theorem test_step_generate_from_reset :
    (coreOf (step (State.reset.withFetchWord 32 0x70000004))).map (·.KS) =
      some [false, true, true, false] := by rfl

/-- P4: an illegal word changes nothing but the response. -/
theorem test_step_illegal :
    step (stA.withFetchWord 32 0x1C000000) = .next (aborted stA coreA .illegalCommand) := by rfl

theorem test_step_unbuilt :
    faultOf (step (State.withFetchWord { stA with core := none } 32 0x60000000)) = some .unbuiltCore := by decide

theorem test_capacity_refused :
    refusalOf (exec (.generate 5) { stA with params := ⟨some 4, none⟩ }) = some .bufferCapacity := by decide

/-- S1 on the response port: `rsp_bit` 0, `rsp_a` 4, `rsp_b` 9. -/
theorem test_response_port :
    encodeResponse ⟨.ok, quiet, some (.stepped ⟨false, [false, true, false, false], [true, false, false, true]⟩)⟩ =
      ⟨0, 0, false, 4, 9⟩ := by decide

/-- R71: a value field is driven 0 on a fault, whatever the response holds. -/
theorem test_response_port_fault :
    encodeResponse ⟨.badSteps, quiet, some (.bit true)⟩ = ⟨4, 0, false, 0, 0⟩ := by decide

/-- P4: the warning `001` of an all-zero control register. -/
theorem test_response_port_warn :
    encodeResponse ⟨.configError, ⟨false, false, true⟩, none⟩ = ⟨1, 1, false, 0, 0⟩ := by decide

/-! ### The assembler (R69, R70) -/

theorem test_assemble_lload : assembleLine "LLOAD G1, 0111 ; load".toList = some [0x34800007] := by decide
theorem test_assemble_combine : assembleLine "COMBINE 0,1,1".toList = some [0x50000003] := by decide
theorem test_assemble_generate : assembleLine "GENERATE 16".toList = some [0x70000010] := by decide
theorem test_assemble_word : assembleLine ".word 0x33E00000".toList = some [0x33E00000] := by decide
theorem test_assemble_too_long : assembleLine "INLD 10110100100111011".toList = none := by decide
theorem test_assemble_encrypt :
    assembleLine "ENCRYPT 10110100100111011".toList =
      some [0x90000000, 0xA200B49D, 0xA0200001, 0x80000000, 0xC0000011] := by decide

/-! ### Witnesses: for each obligation with hypotheses, a state and operands that meet them all -/

/-- The core of TC-A after one GSTEP, with one input bit: every buffer but `OUT` holds one element. -/
def coreUsed : CoreState := { (lockstep coreA).1 with IN := [true] }

/-- The core of TC-A with one register at all-zero. -/
def coreZero (r : Reg) : CoreState := setReg coreA r (List.replicate 4 false)

/-- TC-A meets the invariant of a core. -/
theorem coreA_inv : CoreInv coreA where
  width_pos := by decide
  taps_length := by intro r; cases r <;> rfl
  init_length := by intro r; cases r <;> rfl
  reg_length := by intro r; cases r <;> rfl
  trace_length := by intro r; cases r <;> rfl
  trace_record := by
    intro r t h
    cases r <;> cases h
  keystream_bit := by
    intro k t0 t1 tc h
    cases h

/-- So does it after a step. -/
theorem coreUsed_inv : CoreInv coreUsed where
  width_pos := by decide
  taps_length := by intro r; cases r <;> rfl
  init_length := by intro r; cases r <;> rfl
  reg_length := by intro r; cases r <;> rfl
  trace_length := by intro r; cases r <;> rfl
  trace_record := by
    intro r t h
    cases r <;> (rw [List.mem_singleton.1 h]; decide)
  keystream_bit := by
    intro k t0 t1 tc h0 h1 hc
    cases k with
    | zero => cases h0; cases h1; cases hc; rfl
    | succ k => cases h0

/-- And with a register at all-zero. -/
theorem coreZero_inv (r : Reg) : CoreInv (coreZero r) where
  width_pos := by cases r <;> decide
  taps_length := by intro r'; cases r <;> cases r' <;> rfl
  init_length := by intro r'; cases r <;> cases r' <;> rfl
  reg_length := by intro r'; cases r <;> cases r' <;> rfl
  trace_length := by intro r'; cases r <;> cases r' <;> rfl
  trace_record := by
    intro r' t h
    cases r <;> cases r' <;> cases h
  keystream_bit := by
    intro k t0 t1 tc h
    cases r <;> cases h

/-- A state whose buffers hold at most `cap` elements. -/
def bounded (cap : Nat) (c : CoreState) : State := ⟨some c, ⟨some cap, none⟩, [], []⟩

theorem witness_DecodeOfEncodeIsTheCommand :
    (Instr.lload .ct (.vector (List.replicate 16 true))).wf = true ∧
      (Instr.lload .ct (.unassembled 31 0xFFFF)).wf = true ∧ (Instr.lload .g0 (.unassembled 0 0)).wf = true ∧
      (Instr.inld (List.replicate 16 true)).wf = true ∧ (Instr.crypt 65535).wf = true := by decide

theorem witness_EncodeOfDecodeIsTheWord :
    decode 0xC000FFFF = .ok (.crypt 65535) ∧ decode 0x3BE0FFFF = .ok (.lload .ct (.unassembled 31 0xFFFF)) := by decide

theorem witness_DecodingFollowsTheRows :
    (∃ row ∈ opcodeRows, row.candidate 0x1C000000 = true ∧ row.accepts 0x1C000000 = false) ∧
      (∃ row ∈ opcodeRows, row.accepts 0x34800007 = true) ∧
      decode 0x34800007 = .ok (.lload .g1 (.vector [false, true, true, true])) ∧
      (∀ row ∈ opcodeRows, row.accepts 0xFFFFFFFF = false) ∧ stA.core = some coreA := by decide

/-- `len` 4 with data inside and outside it; `len` 1 and 16, the ends of INLD's range; 0, 17 and 31. -/
theorem witness_VectorOperandIsReadFromData :
    (0x0007 : BitVec 16) >>> min (4 : BitVec 5).toNat 16 = 0 ∧
      (0x0017 : BitVec 16) >>> min (4 : BitVec 5).toNat 16 ≠ 0 ∧
      (0x0001 : BitVec 16) >>> min (1 : BitVec 5).toNat 16 = 0 ∧
      (0xFFFF : BitVec 16) >>> min (16 : BitVec 5).toNat 16 = 0 ∧
      (0xFFFF : BitVec 16) >>> min (17 : BitVec 5).toNat 16 = 0 ∧
      (0xFFFF : BitVec 16) >>> min (31 : BitVec 5).toNat 16 = 0 ∧
      (0x0000 : BitVec 16) >>> min (0 : BitVec 5).toNat 16 = 0 ∧
      stA.core = some coreA := by decide

theorem witness_FeedbackIsParityOfTaps :
    ([true, true, false, false] : Bits).length = ([false, true, false, false] : Bits).length := by decide

/-- Width 4 and width 1. -/
theorem witness_NextStateShiftsAndAppends :
    (1 ≤ ([false, true, false, false] : Bits).length ∧
        ([true, true, false, false] : Bits).length = ([false, true, false, false] : Bits).length) ∧
      1 ≤ ([true] : Bits).length ∧ ([false] : Bits).length = ([true] : Bits).length := by decide

theorem witness_OutputBitIsElementZero : 1 ≤ ([true] : Bits).length := by decide

theorem witness_LstepStepsOneRegister : stA.core = some coreA ∧ CoreInv coreA := ⟨rfl, coreA_inv⟩

theorem witness_LresetRestoresTheConfiguredState :
    stA.core = some coreA ∧ ([true, false, false, false] : Bits).length = coreA.cfg.W := by decide

/-- Vectors of 1 and 16 elements, of the width, of the two neighbouring lengths, and the empty one. -/
theorem witness_LloadLoadsOrRaisesConfigError :
    stA.core = some coreA ∧ 1 ≤ ([true] : Bits).length ∧ (List.replicate 16 true).length ≤ 16 ∧
      ([true, false, false, false] : Bits).length = coreA.cfg.W ∧
      ([true, false, false] : Bits).length ≠ coreA.cfg.W ∧
      (List.replicate 5 true).length ≠ coreA.cfg.W ∧ ([] : Bits).length ≠ coreA.cfg.W := by decide

theorem witness_LreadRespondsTheRegister : stA.core = some coreA := rfl

theorem witness_AllZeroIsAFixedPoint :
    1 ≤ 4 ∧ (holding (coreZero .g1)).core = some (coreZero .g1) ∧ CoreInv (coreZero .g1) ∧
      (coreZero .g1).S.get .g1 = List.replicate (coreZero .g1).cfg.W false :=
  ⟨by decide, rfl, coreZero_inv _, rfl⟩

theorem witness_OutputsSatisfyTheRecurrence :
    1 ≤ ([false, true, false, false] : Bits).length ∧
      ([true, true, false, false] : Bits).length = ([false, true, false, false] : Bits).length := by decide

/-- A tap mask with index 0, one without, and the two masks of width 1. -/
theorem witness_StepIsInvertibleExactlyWithTapZero :
    (1 ≤ 4 ∧ ([true, true, false, false] : Bits).length = 4 ∧
        ([true, true, false, false] : Bits)[0]? = some true) ∧
      (([false, true, false, false] : Bits).length = 4 ∧
        ([false, true, false, false] : Bits)[0]? = some false) ∧
      1 ≤ 1 ∧ ([true] : Bits)[0]? = some true ∧ ([false] : Bits)[0]? = some false := by decide

theorem witness_PeriodIsBounded :
    1 ≤ ([false, true, false, false] : Bits).length ∧
      ([true, true, false, false] : Bits).length = ([false, true, false, false] : Bits).length ∧
      ([true, true, false, false] : Bits)[0]? = some true := by decide

theorem witness_CombineRespondsTheSelectedBit : stA.core = some coreA := rfl

theorem witness_GstepAdvancesInLockstep :
    (stA.core = some coreA ∧ CoreInv coreA ∧ fitsCapacity stA.params (coreA.KS.length + 1) = true) ∧
      (bounded 2 coreUsed).core = some coreUsed ∧ CoreInv coreUsed ∧
      fitsCapacity (bounded 2 coreUsed).params (coreUsed.KS.length + 1) = true :=
  ⟨⟨rfl, coreA_inv, rfl⟩, rfl, coreUsed_inv, rfl⟩

/-- The counts 0, 1 and 65535, and a finite capacity that 4 just fits. -/
theorem witness_GenerateReplacesTheKeystream :
    stA.core = some coreA ∧ CoreInv coreA ∧ 0 < 2 ^ 16 ∧ 65535 < 2 ^ 16 ∧
      (1 ≤ 1 ∧ fitsCapacity stA.params 1 = true) ∧
      (bounded 4 coreUsed).core = some coreUsed ∧ CoreInv coreUsed ∧
      fitsCapacity (bounded 4 coreUsed).params 4 = true :=
  ⟨rfl, coreA_inv, by decide, by decide, ⟨by decide, rfl⟩, rfl, coreUsed_inv, rfl⟩

theorem witness_GresetRestoresEveryRegister : (holding coreUsed).core = some coreUsed := rfl

theorem witness_LockstepOrderIsImmaterial :
    ([Reg.ct, .g0, .g1].Perm [.g0, .g1, .ct]) ∧ Reg.g0 ≠ Reg.ct := by decide

theorem witness_GenerateIsClearThenGsteps :
    (holding coreUsed).core = some coreUsed ∧ CoreInv coreUsed ∧ 1 ≤ 3 ∧
      fitsCapacity (holding coreUsed).params 3 = true :=
  ⟨rfl, coreUsed_inv, by decide, rfl⟩

theorem witness_SecondGenerateContinuesTheStream :
    stA.core = some coreA ∧ CoreInv coreA ∧ 1 ≤ 4 ∧ 1 ≤ 1 ∧ fitsCapacity stA.params (4 + 1) = true :=
  ⟨rfl, coreA_inv, by decide, by decide, rfl⟩

theorem witness_RegeneratedKeystreamIsDetermined :
    stA.core = some coreA ∧ (bounded 16 coreUsed).core = some coreUsed ∧ coreA.cfg = coreUsed.cfg ∧ 1 ≤ 16 ∧
      fitsCapacity stA.params 16 = true ∧ fitsCapacity (bounded 16 coreUsed).params 16 = true := by decide

/-- The reference initial states, whose control bit 0 is 0; and a control state whose bit 0 is 1. -/
theorem witness_KeystreamFormula :
    (stA.core = some coreA ∧ CoreInv coreA ∧ 1 ≤ 4 ∧ fitsCapacity stA.params 4 = true ∧ 4 ≤ 4 ∧
        coreA.cfg.I =
          ⟨[false, true, false, false], [false, true, true, true], [false, true, true, false]⟩ ∧
        coreA.cfg.I.ct[0]? = some false) ∧
      (latch rawB).I.ct[0]? = some true :=
  ⟨⟨rfl, coreA_inv, by decide, rfl, by decide, rfl, rfl⟩, rfl⟩

theorem witness_GenerateWarnsExactlyWhenAllZeroOccurred :
    (holding (coreZero .g0)).core = some (coreZero .g0) ∧ CoreInv (coreZero .g0) ∧ 1 ≤ 1 ∧
      fitsCapacity (holding (coreZero .g0)).params 1 = true :=
  ⟨rfl, coreZero_inv _, by decide, rfl⟩

theorem witness_AllZeroRegisterShapesTheKeystream (r : Reg) :
    (holding (coreZero r)).core = some (coreZero r) ∧ CoreInv (coreZero r) ∧ 1 ≤ 8 ∧
      fitsCapacity (holding (coreZero r)).params 8 = true ∧
      (coreZero r).S.get r = List.replicate (coreZero r).cfg.W false :=
  ⟨rfl, coreZero_inv r, by decide, rfl, by cases r <;> rfl⟩

theorem witness_XorSequenceIsSelfInverse :
    ([true, false] : Bits).length = ([true, true] : Bits).length := by decide

theorem witness_XorSequenceIsPositionwise :
    ([true, false] : Bits).length = ([true, true] : Bits).length ∧
      ([true, false] : Bits)[0]? = some true ∧ ([true, true] : Bits)[0]? = some true := by decide

theorem witness_InclrEmptiesTheInput : (holding coreUsed).core = some coreUsed := rfl

/-- Vectors of 1 and of 16 elements, the second just filling a finite buffer. -/
theorem witness_InldAppendsToTheInput :
    (stA.core = some coreA ∧ 1 ≤ ([true] : Bits).length ∧ ([true] : Bits).length ≤ 16 ∧
        fitsCapacity stA.params (coreA.IN.length + ([true] : Bits).length) = true) ∧
      (bounded 17 coreUsed).core = some coreUsed ∧ 1 ≤ (List.replicate 16 true).length ∧
      (List.replicate 16 true).length ≤ 16 ∧
      fitsCapacity (bounded 17 coreUsed).params (coreUsed.IN.length + (List.replicate 16 true).length) = true := by
  decide

/-- Both lengths 0, both 1, and lengths 1 and 0. -/
theorem witness_ApplyXorsInputAndKeystream :
    (stA.core = some coreA ∧ coreA.IN.length = coreA.KS.length ∧
        fitsCapacity stA.params coreA.IN.length = true) ∧
      ((bounded 1 coreUsed).core = some coreUsed ∧ coreUsed.IN.length = coreUsed.KS.length ∧
        fitsCapacity (bounded 1 coreUsed).params coreUsed.IN.length = true ∧ coreUsed.IN[0]? = some true ∧
        coreUsed.KS[0]? = some false) ∧
      ({ coreA with IN := [true] } : CoreState).IN.length ≠ coreA.KS.length := by decide

/-- The count 0; a count that the input does not have; a count that it has. -/
theorem witness_CryptIsGenerateThenApply :
    (holding coreUsed).core = some coreUsed ∧ CoreInv coreUsed ∧ 0 < 2 ^ 16 ∧ (1 ≤ 2 ∧ coreUsed.IN.length ≠ 2) ∧
      1 ≤ 1 ∧ coreUsed.IN.length = 1 ∧ fitsCapacity (holding coreUsed).params 1 = true :=
  ⟨rfl, coreUsed_inv, by decide, by decide, by decide, rfl, rfl⟩

theorem witness_DecryptionReturnsThePlaintext :
    stA.core = some coreA ∧ (bounded 16 coreUsed).core = some coreUsed ∧ coreA.cfg = coreUsed.cfg ∧
      CoreInv coreA ∧ 1 ≤ Config.defaultPlaintext.length ∧
      fitsCapacity stA.params Config.defaultPlaintext.length = true ∧
      fitsCapacity (bounded 16 coreUsed).params Config.defaultPlaintext.length = true ∧
      coreA.cfg.I = ⟨[false, true, false, false], [false, true, true, true], [false, true, true, false]⟩ :=
  ⟨rfl, rfl, rfl, coreA_inv, by decide, rfl, rfl, rfl⟩

/-- A bit string of one chunk and one of two. -/
theorem witness_InsetSuppliesTheWholeInput :
    stA.core = some coreA ∧ 1 ≤ ([true] : Bits).length ∧
      fitsCapacity stA.params (List.replicate 17 true).length = true ∧
      (insetCommands (List.replicate 17 true)).length = 3 ∧ Instr.inld [true] ∈ insetCommands [true] := by decide

theorem witness_OnlyTheListedCommandsWriteARegister :
    stA.core = some coreA ∧ (∃ t, exec (.lstep .g0) stA = .next t) ∧ mayWriteReg .g1 (.lstep .g0) = false :=
  ⟨rfl, ⟨_, rfl⟩, rfl⟩

theorem witness_OnlyTheListedCommandsWriteABuffer :
    (holding coreUsed).core = some coreUsed ∧ (∃ t, exec .apply (holding coreUsed) = .next t) ∧
      mayWriteKeystream .apply = false ∧ mayWriteInput .apply = false ∧ mayWriteOutput .inclr = false :=
  ⟨rfl, ⟨_, rfl⟩, rfl, rfl, rfl⟩

/-- A command that completes and one that faults. -/
theorem witness_StepCounterCountsLockstepSteps :
    stA.core = some coreA ∧ (∃ t, exec .gstep stA = .next t) ∧ ∃ t, exec (.generate 0) stA = .next t :=
  ⟨rfl, ⟨_, rfl⟩, ⟨_, rfl⟩⟩

theorem witness_CommandsKeepTheConfiguration :
    stA.core = some coreA ∧ ∃ t, exec .greset stA = .next t := ⟨rfl, ⟨_, rfl⟩⟩

theorem witness_EveryCommandGivesOneResponse :
    (∃ t, exec (.lread .g0) stA = .next t) ∧ ∃ t, exec (.generate 0) stA = .next t := ⟨⟨_, rfl⟩, ⟨_, rfl⟩⟩

theorem witness_FaultLeavesTheStateUntouched :
    stA.core = some coreA ∧ runCommand 0x70000000 stA = .next (aborted stA coreA .badSteps) ∧
      (aborted stA coreA .badSteps).outputs = stA.outputs ++ [.response ⟨.badSteps, warnBits coreA, none⟩] ∧
      ErrorKind.badSteps ≠ .ok :=
  ⟨rfl, rfl, rfl, by decide⟩

/-- One word for each kind: illegal, `CRYPT 0`, `APPLY` and `CRYPT 2` with one input bit, `LLOAD` of length 0. -/
theorem witness_FaultsAreRaisedExactlyAsStated :
    stA.core = some coreA ∧ runCommand 0x00000000 stA = .next (aborted stA coreA .illegalCommand) ∧
      runCommand 0xC0000000 stA = .next (aborted stA coreA .badSteps) ∧
      runCommand 0x30000000 stA = .next (aborted stA coreA .configError) ∧
      (holding { coreA with IN := [true] }).core = some { coreA with IN := [true] } ∧
      runCommand 0xB0000000 (holding { coreA with IN := [true] }) =
        .next (aborted (holding { coreA with IN := [true] }) { coreA with IN := [true] } .lengthMismatch) ∧
      runCommand 0xC0000002 (holding { coreA with IN := [true] }) =
        .next (aborted (holding { coreA with IN := [true] }) { coreA with IN := [true] } .lengthMismatch) :=
  ⟨rfl, rfl, rfl, rfl, rfl, rfl, rfl⟩

/-- The buffers of `coreUsed` are within every capacity of at least 1. -/
theorem coreUsed_within (cap : Nat) (h : 1 ≤ cap) : WithinCapacity (bounded cap coreUsed).params coreUsed where
  ks := decide_eq_true h
  inp := decide_eq_true h
  out := decide_eq_true (Nat.zero_le cap)
  tr := by intro r; cases r <;> exact decide_eq_true h

/-- Capacity 1: full for GSTEP, too small for GENERATE 2 and for INLD of one bit; and a refusal there. -/
theorem witness_OverfullBufferIsRefused :
    (bounded 1 coreUsed).core = some coreUsed ∧ CoreInv coreUsed ∧
      WithinCapacity (bounded 1 coreUsed).params coreUsed ∧ (bounded 1 coreUsed).params.bufCap = some 1 ∧
      1 < coreUsed.KS.length + 1 ∧ 1 < 2 ∧ 1 < coreUsed.IN.length + ([true] : Bits).length ∧
      exec .gstep (bounded 1 coreUsed) = .refused .bufferCapacity :=
  ⟨rfl, coreUsed_inv, coreUsed_within 1 (by decide), rfl, by decide, by decide, by decide, rfl⟩

theorem witness_ConstructionLatchesAndResets :
    cfgOk rawA = true ∧ cfgOk rawB = true ∧ cfgOk ⟨1, ⟨[0], [], []⟩, ⟨[true], [false], [true]⟩⟩ = true ∧
      rawA.width ≤ 16 ∧ cfgOk { rawA with width := 0 } = false := by
  decide

/-- The configuration of a width without taps, all its registers 0. -/
def rawWide (width : Nat) : RawConfig :=
  ⟨width, ⟨[], [], []⟩, ⟨List.replicate width false, List.replicate width false, List.replicate width false⟩⟩

/-- Width 16 is built, width 17 refused. -/
theorem witness_ConstructedWidthsAreEncodable :
    (∃ t d, constructEvent (rawWide 16) stA = .next t ∧ t.core = some d) ∧
      cfgOk (rawWide 17) = true ∧ 16 < (rawWide 17).width :=
  ⟨⟨_, _, rfl, rfl⟩, by decide, by decide⟩

theorem witness_FailedConstructionLeavesNoMachine :
    cfgOk { rawA with width := 3 } = false ∧ ({ stA with core := none } : State).core = none := by decide

theorem witness_StepRunsTheDecodedCommand :
    (present (.command 0x60000000) stA).core = some coreA ∧
      (present (.command 0x60000000) stA).port = .command 0x60000000 :: [] ∧ decode 0x60000000 = .ok .gstep ∧
      (present (.construct rawB) stA).port = .construct rawB :: [] := by
  decide

theorem witness_IdleStepChangesNothing : stA.port = [] := rfl

theorem witness_RunIsTheCompositionOfCommands :
    ∀ i ∈ encryptCommands Config.defaultPlaintext, i.wf = true := by decide

theorem witness_BuiltCoreNeverStops :
    (present (.construct rawB) stA).core = some coreA ∧ (present (.construct rawB) stA).params.bufCap = none ∧
      onlyGoodConstructions (present (.construct rawB) stA).port := by
  refine ⟨rfl, rfl, ?_⟩
  intro raw h
  cases List.mem_singleton.1 h
  exact ⟨by decide, by decide⟩

/-- A step from a state that meets the invariant. -/
theorem witness_EveryStepKeepsTheInvariant :
    Inv (present (.command 0x60000000) (holding coreUsed)) ∧
      ∃ t, step (present (.command 0x60000000) (holding coreUsed)) = .next t := by
  refine ⟨?_, ⟨_, rfl⟩⟩
  intro c h
  cases h
  exact ⟨coreUsed_inv, ⟨rfl, rfl, rfl, by intro r; cases r <;> rfl⟩, by decide⟩

/-- Vectors of 0 and 16 elements, at the bits 0 and 15; and a fault. -/
theorem witness_ResponsePortFields :
    ([] : Bits).length ≤ 16 ∧ Config.defaultPlaintext.length ≤ 16 ∧ 0 < 16 ∧ 15 < 16 ∧
      ErrorKind.badSteps ≠ .ok := by decide

/-- An unbounded counter, one of width 1 that the count 1 just fits, and an unbuilt core. -/
theorem witness_ObservationShowsTheCore :
    (holding coreUsed).core = some coreUsed ∧ (holding coreUsed).params.lenWidth = none ∧
      ({ holding coreUsed with params := ⟨none, some 1⟩ } : State).params.lenWidth = some 1 ∧
      coreUsed.LEN < 2 ^ 1 ∧ ({ stA with core := none } : State).core = none := by decide

theorem witness_PackedRecordHoldsOutOldNew :
    (stepRecord coreA.cfg.T.g0 coreA.S.g0).old.length = 4 ∧
      (stepRecord coreA.cfg.T.g0 coreA.S.g0).new.length = 4 := by decide

end Sys2Proof.Tests
end

