-- ==== Sys2Proof/Proofs/Scope.lean ====
section
/-!
PROOFS. The statements of spec/00_scope.md: construction (R8, R180), the state after reset (R7, R33), and the
step as the execution of the decoded command (R13). First the rules of the definitions they speak of: tap masks,
the all-zero flag, `cfg_ok`, the two results of `construct`, and a step on a presented word.
-/

namespace Sys2Proof.Machine

/-! ### Tap masks (10_state.md R24) and the all-zero flag (R26) -/

@[simp] theorem tapMask_length (width : Nat) (taps : List Nat) : (tapMask width taps).length = width := by
  simp [tapMask]

/-- The mask taps exactly the indices of the set that are below the width. -/
theorem tapMask_getElem?_eq_true (width : Nat) (taps : List Nat) (i : Nat) :
    (tapMask width taps)[i]? = some true ↔ i < width ∧ i ∈ taps := by
  simp [tapMask, List.getElem?_eq_some_iff]

/-- The mask of the set of the indices below the width that `f` picks is `f` itself, element by element. -/
theorem tapMask_filter_range (width : Nat) (f : Nat → Bit) :
    tapMask width ((List.range width).filter f) = (List.range width).map f := by
  refine List.map_congr_left fun i hi => ?_
  rw [Bool.eq_iff_iff]
  simp [List.mem_range.mp hi]

theorem allZero_eq_true (v : Bits) : allZero v = true ↔ ∀ b ∈ v, b = false := by
  simp [allZero]

/-! ### Well-formed configurations (00_scope.md R8) and construction (70_reset_and_hazards.md R180, R181) -/

theorem regConfigOk_iff (raw : RawConfig) (r : Reg) :
    regConfigOk raw r = true ↔
      (∀ i ∈ raw.taps.get r, i < raw.width) ∧ (raw.init.get r).length = raw.width := by
  simp [regConfigOk]

/-- `cfg_ok` spelled out: one condition on the width and two on each register (R8). -/
theorem cfgOk_iff (raw : RawConfig) :
    cfgOk raw = true ↔ 1 ≤ raw.width ∧ ∀ r, (∀ i ∈ raw.taps.get r, i < raw.width) ∧
      (raw.init.get r).length = raw.width := by
  have all_regs : (∀ r, regConfigOk raw r = true) ↔
      regConfigOk raw .g0 = true ∧ regConfigOk raw .g1 = true ∧ regConfigOk raw .ct = true :=
    ⟨fun h => ⟨h .g0, h .g1, h .ct⟩, fun ⟨h0, h1, h2⟩ r => by cases r <;> assumption⟩
  simp only [← regConfigOk_iff, all_regs, cfgOk, Bool.and_eq_true, decide_eq_true_eq, and_assoc]

theorem construct_of_cfgOk {raw : RawConfig} (h : cfgOk raw = true) :
    construct raw = .ok (freshCore (latch raw)) := by
  simp [construct, h]

theorem construct_of_not_cfgOk {raw : RawConfig} (h : cfgOk raw = false) :
    construct raw = .error .configError := by
  simp [construct, h]

/-- A construction the encoded interface has (R72) replaces the core, built or not, and answers built. -/
theorem constructEvent_built {raw : RawConfig} (h : cfgOk raw = true) (hw : raw.width ≤ 16) (s : State) :
    constructEvent raw s =
      .next { s with core := some (freshCore (latch raw)), outputs := s.outputs ++ [.built] } := by
  simp [constructEvent_eq, h, hw]

/-- A failed construction leaves no core (R181). -/
theorem constructEvent_failed {raw : RawConfig} (h : cfgOk raw = false) (s : State) :
    constructEvent raw s = .next { s with core := none, outputs := s.outputs ++ [.constructionError] } := by
  simp [constructEvent_eq, h]

/-- The flag of a fresh core tells whether its initial state is all-zero (R26, R33). -/
theorem zeroFlag_freshCore_latch (raw : RawConfig) (r : Reg) :
    zeroFlag (freshCore (latch raw)) r = true ↔ ∀ b ∈ raw.init.get r, b = false :=
  allZero_eq_true (raw.init.get r)

/-- With every tap below the width (`cfg_ok`), no tap is lost in the latched mask: it is the tap set. -/
theorem latch_taps_iff {raw : RawConfig} (h : cfgOk raw = true) (r : Reg) (i : Nat) :
    ((latch raw).T.get r)[i]? = some true ↔ i ∈ raw.taps.get r := by
  obtain ⟨-, hregs⟩ := (cfgOk_iff raw).mp h
  obtain ⟨htaps, -⟩ := hregs r
  rw [latch_T_get, tapMask_getElem?_eq_true]
  exact ⟨fun ⟨_, hi⟩ => hi, fun hi => ⟨htaps i hi, hi⟩⟩

/-- Settles O46: the constructed core is `freshCore (latch raw)`, read field by field. -/
theorem constructionLatchesAndResets : Obligations.ConstructionLatchesAndResets := by
  intro s raw
  refine ⟨cfgOk_iff raw, fun h => ?built, fun h => ?failed⟩
  case built =>
    refine ⟨freshCore (latch raw), construct_of_cfgOk h, fun hw => constructEvent_built h hw s,
      rfl, rfl, rfl, rfl, rfl, rfl, rfl, fun r => ⟨?trace, ?mask, zeroFlag_freshCore_latch raw r,
        latch_taps_iff h r⟩⟩
    case trace => cases r <;> rfl
    case mask => simp
  case failed =>
    refine ⟨construct_of_not_cfgOk h, fun t ht => ?_⟩
    rw [constructEvent_failed h] at ht
    cases ht
    rfl

/-! ### The reference configuration (00_scope.md R7) and the state after reset (10_state.md R33) -/

/-- The reference configuration is well-formed whatever the open tap sets are: they hold only indices below
the width. -/
theorem cfgOk_reference : cfgOk Config.reference = true := by
  refine (cfgOk_iff _).mpr ⟨by decide, fun r => ⟨?taps, by cases r <;> rfl⟩⟩
  cases r with
  | g0 => decide
  | g1 => exact fun i hi => List.mem_range.mp (List.mem_of_mem_filter hi)
  | ct => exact fun i hi => List.mem_range.mp (List.mem_of_mem_filter hi)

/-- What the reference configuration latches: the open tap sets stay open, as masks of four elements. -/
theorem latch_reference : latch Config.reference =
    { W := 4
      T := ⟨[true, true, false, false], (List.range 4).map Config.tapsGenerator1,
            (List.range 4).map Config.tapsControl⟩
      I := Config.reference.init } := by
  have masks : (latch Config.reference).T = ⟨tapMask 4 [0, 1],
      tapMask 4 ((List.range 4).filter Config.tapsGenerator1),
      tapMask 4 ((List.range 4).filter Config.tapsControl)⟩ := rfl
  rw [tapMask_filter_range, tapMask_filter_range] at masks
  exact congrArg (Configuration.mk 4 · Config.reference.init) masks

/-- The state after reset holds the fresh core of the reference configuration (log 1). -/
theorem reset_eq_freshCore : State.reset =
    ⟨some (freshCore (latch Config.reference)), ⟨none, none⟩, [], []⟩ := by
  rw [latch_reference]
  rfl

/-- Settles O48. -/
theorem resetIsTheReferenceConstruction : Obligations.ResetIsTheReferenceConstruction :=
  ⟨freshCore (latch Config.reference), construct_of_cfgOk cfgOk_reference, reset_eq_freshCore,
    rfl, rfl, rfl, rfl, rfl, rfl, rfl, rfl, rfl, rfl⟩

/-! ### A step on a presented word (00_scope.md R13, 10_state.md R25) -/

/-- A word presented ahead of all else is what the very next step runs, on the state as it was. -/
theorem step_present_command (w : CommandWord) (s : State) :
    step (present (.command w) s) = runCommand w s :=
  step_command (present_port _ s)

/-- All 32 bits of a word reach the port: nothing is cut off. -/
theorem withFetchWord_toNat (s : State) (w : CommandWord) :
    s.withFetchWord 32 w.toNat = present (.command w) s := by
  have whole : BitVec.ofNat 32 (w.toNat % 2 ^ 32) = w := by
    rw [Nat.mod_eq_of_lt w.isLt, BitVec.ofNat_toNat, BitVec.setWidth_eq]
  rw [State.withFetchWord, whole]

/-- Settles O49: a presented word is run by `runCommand`, which on a built core executes the decoded command. -/
theorem stepRunsTheDecodedCommand : Obligations.StepRunsTheDecodedCommand := by
  intro s rest
  refine ⟨fun c w i hc hp hd => ⟨?front, ?fetched⟩, fun w hp => step_command hp,
    fun raw hp => step_construct hp⟩
  case front => exact (step_command hp).trans (runCommand_legal (s := { s with port := rest }) hc hd)
  case fetched => rw [withFetchWord_toNat, step_present_command, runCommand_legal hc hd]

end Sys2Proof.Machine
end

/-!
PROOFS. The statements of spec/10_state.md: the access rights of the registers (R22), the step counter (R23), the
latched configuration (R24), the response (R26, R29), the packed step record (R28), the observation port (R30),
and the invariant of the machine (R32). First what `effect` does to each piece of a core, one lemma for each
piece, and what it keeps of `CoreInv` and `WithinCapacity`; the statements follow from these by `exec_next`.
-/

namespace Sys2Proof.Machine

/-! ### What a keystream run and a command leave of a core -/

@[simp] theorem keystream_cfg (n : Nat) (c : CoreState) : (keystream n c).cfg = c.cfg :=
  (keystream_frame n c).left

@[simp] theorem keystream_IN (n : Nat) (c : CoreState) : (keystream n c).IN = c.IN := by
  obtain ⟨-, hin, -, -⟩ := keystream_frame n c
  exact hin

@[simp] theorem keystream_OUT (n : Nat) (c : CoreState) : (keystream n c).OUT = c.OUT := by
  obtain ⟨-, -, hout, -⟩ := keystream_frame n c
  exact hout

@[simp] theorem keystream_LEN (n : Nat) (c : CoreState) : (keystream n c).LEN = c.LEN + n := by
  obtain ⟨-, -, -, hlen⟩ := keystream_frame n c
  exact hlen

@[simp] theorem keystream_KS_length (n : Nat) (c : CoreState) : (keystream n c).KS.length = n := by
  simp [keystream_KS]

@[simp] theorem keystream_TR_length (n : Nat) (c : CoreState) (r : Reg) :
    ((keystream n c).TR.get r).length = n := by
  simp [keystream_TR]

/-- No command writes the latched configuration (R24). -/
@[simp] theorem effect_cfg (i : Instr) (c : CoreState) : (effect i c).cfg = c.cfg := by
  cases i with
  | lload r v => cases v <;> rfl
  | generate n => exact keystream_cfg n c
  | crypt n => exact keystream_cfg n c
  | _ => rfl

/-- Only lockstep steps count, and GRESET starts the count again (R23). -/
theorem effect_LEN (i : Instr) (c : CoreState) : (effect i c).LEN = lenAfter c.LEN i := by
  cases i with
  | lload r v => cases v <;> rfl
  | generate n => exact keystream_LEN n c
  | crypt n => exact keystream_LEN n c
  | _ => rfl

/-- A write to one register leaves the others, with `r' ≠ r` as `mayWriteReg` says it. -/
theorem setReg_S_get_other (c : CoreState) {r r' : Reg} (v : Bits) (h : (r' == r) = false) :
    (setReg c r' v).S.get r = c.S.get r :=
  PerReg.get_set_other _ v (Ne.symm (beq_eq_false_iff_ne.mp h))

/-- A register changes only by a command with the right to write it (R22). -/
theorem effect_S_get {i : Instr} {r : Reg} (c : CoreState) (h : mayWriteReg r i = false) :
    (effect i c).S.get r = c.S.get r := by
  cases i with
  | lstep r' => exact setReg_S_get_other c _ h
  | lreset r' => exact setReg_S_get_other c _ h
  | lload r' v =>
    cases v with
    | vector v => exact setReg_S_get_other c v h
    | unassembled len data => rfl
  | gstep => exact nomatch h
  | generate n => exact nomatch h
  | greset => exact nomatch h
  | crypt n => exact nomatch h
  | _ => rfl

/-- A value stands in the response of exactly the commands that R29 gives one. -/
theorem resultValue_isSome (i : Instr) (c : CoreState) : (resultValue i c).isSome = hasValue i := by
  cases i <;> rfl

/-! ### The statements about every command -/

/-- On the core `c`, a command that answers a next state completed there or aborted there: `exec_next` for a
core that is known. -/
theorem exec_next_on {i : Instr} {s t : State} {c : CoreState} (hc : s.core = some c) (h : exec i s = .next t) :
    (errorOf i c = .ok ∧ fitsCapacity s.params (neededCapacity i c) = true ∧
        t = completed s (effect i c) (resultValue i c)) ∨
      (errorOf i c ≠ .ok ∧ t = aborted s c (errorOf i c)) := by
  obtain ⟨c', hc', hcase⟩ := exec_next h
  obtain rfl : c = c' := Option.some.inj (hc.symm.trans hc')
  exact hcase

/-- Settles O38: the effect of such a command leaves the register, and a fault leaves the core. -/
theorem onlyTheListedCommandsWriteARegister : Obligations.OnlyTheListedCommandsWriteARegister := by
  intro i s t c r hc h hw
  obtain ⟨-, -, rfl⟩ | ⟨-, rfl⟩ := exec_next_on hc h
  · exact ⟨effect i c, rfl, effect_S_get c hw⟩
  · exact ⟨c, hc, rfl⟩

/-- Settles O40: OK means that the command completed, anything else that it aborted. -/
theorem stepCounterCountsLockstepSteps : Obligations.StepCounterCountsLockstepSteps := by
  intro i s t c hc h
  obtain ⟨-, -, rfl⟩ | ⟨hfault, rfl⟩ := exec_next_on hc h
  · exact ⟨effect i c, _, rfl, rfl, fun _ => effect_LEN i c, fun hne => absurd rfl hne⟩
  · exact ⟨c, _, hc, rfl, fun hok => absurd hok hfault, fun _ => rfl⟩

/-- Settles O41. -/
theorem commandsKeepTheConfiguration : Obligations.CommandsKeepTheConfiguration := by
  intro i s t c hc h
  obtain ⟨-, -, rfl⟩ | ⟨-, rfl⟩ := exec_next_on hc h
  · exact ⟨rfl, rfl, effect i c, rfl, effect_cfg i c⟩
  · exact ⟨rfl, rfl, c, hc, rfl⟩

/-- The warning of a register is its all-zero flag (R26, R29). -/
theorem warnBits_get_eq_true (c : CoreState) (r : Reg) :
    (warnBits c).get r = true ↔ ∀ b ∈ c.S.get r, b = false := by
  rw [warnBits_get, allZero_eq_true]

/-- Settles O42: the response is the one that `completed` or `aborted` appends. -/
theorem everyCommandGivesOneResponse : Obligations.EveryCommandGivesOneResponse := by
  intro i s t h
  obtain ⟨c, hc, ⟨-, -, rfl⟩ | ⟨hfault, rfl⟩⟩ := exec_next h
  · refine ⟨effect i c, _, rfl, rfl, warnBits_get_eq_true _, ?value⟩
    case value => simp [resultValue_isSome]
  · refine ⟨c, _, hc, rfl, warnBits_get_eq_true c, ?noValue⟩
    case noValue => simp [hfault]

/-! ### The invariant of a core (R28, R32) -/

/-- A core that differs in its registers, its counter, `IN` and `OUT` only, with registers of the width. -/
theorem CoreInv.of_registers {c d : CoreState} (h : CoreInv c) (hcfg : d.cfg = c.cfg) (hks : d.KS = c.KS)
    (htr : d.TR = c.TR) (hreg : ∀ r, (d.S.get r).length = c.cfg.W) : CoreInv d where
  width_pos := hcfg ▸ h.width_pos
  taps_length := hcfg ▸ h.taps_length
  init_length := hcfg ▸ h.init_length
  reg_length := hcfg ▸ hreg
  trace_length := by rw [hks, htr]; exact h.trace_length
  trace_record := by rw [hcfg, htr]; exact h.trace_record
  keystream_bit := by rw [hks, htr]; exact h.keystream_bit

theorem CoreInv.setReg {c : CoreState} (h : CoreInv c) (r : Reg) {v : Bits} (hv : v.length = c.cfg.W) :
    CoreInv (setReg c r v) := by
  refine h.of_registers rfl rfl rfl fun r' => ?_
  by_cases hr : r' = r
  · rw [hr, setReg_S, PerReg.get_set_same, hv]
  · rw [setReg_S, PerReg.get_set_other _ _ hr, h.reg_length]

/-- A register step keeps the width. -/
theorem CoreInv.length_nxt {c : CoreState} (h : CoreInv c) (r : Reg) :
    (nxt (c.cfg.T.get r) (c.S.get r)).length = c.cfg.W := by
  have hpos : 1 ≤ (c.S.get r).length := (h.reg_length r).symm ▸ h.width_pos
  rw [nxt_length hpos, h.reg_length]

/-- Empty traces and an empty keystream meet every condition on them. -/
theorem CoreInv.of_empty_traces {c : CoreState} (hpos : 1 ≤ c.cfg.W)
    (htaps : ∀ r, (c.cfg.T.get r).length = c.cfg.W) (hinit : ∀ r, (c.cfg.I.get r).length = c.cfg.W)
    (hreg : ∀ r, (c.S.get r).length = c.cfg.W) (hks : c.KS = []) (htr : c.TR = ⟨[], [], []⟩) : CoreInv c where
  width_pos := hpos
  taps_length := htaps
  init_length := hinit
  reg_length := hreg
  trace_length := by intro r; rw [hks, htr]; cases r <;> rfl
  trace_record := by intro r t ht; rw [htr] at ht; cases r <;> cases ht
  keystream_bit := by intro k t0 t1 tc h0; rw [htr] at h0; cases h0

theorem CoreInv.clearKeystream {c : CoreState} (h : CoreInv c) : CoreInv (clearKeystream c) :=
  .of_empty_traces h.width_pos h.taps_length h.init_length h.reg_length rfl rfl

/-- A lockstep step appends to each trace the record of its register step, and to the keystream the bit that
the three records combine to (42_generator.md R110). -/
theorem CoreInv.lockstep {c : CoreState} (h : CoreInv c) : CoreInv (lockstep c).1 where
  width_pos := h.width_pos
  taps_length := h.taps_length
  init_length := h.init_length
  reg_length := by
    intro r
    rw [lockstep_core, PerReg.get_ofFn]
    exact h.length_nxt r
  trace_length := by
    intro r
    simp [lockstep_core, h.trace_length]
  trace_record := by
    intro r t ht
    rw [lockstep_core, PerReg.get_ofFn, List.mem_append, List.mem_singleton] at ht
    obtain hold | rfl := ht
    · exact h.trace_record r t hold
    · exact ⟨h.reg_length r, rfl⟩
  keystream_bit := by
    intro k t0 t1 tc h0 h1 hc
    simp only [lockstep_core, PerReg.ofFn, List.getElem?_append, h.trace_length] at h0 h1 hc ⊢
    by_cases hk : k < c.KS.length
    · simp only [if_pos hk] at h0 h1 hc ⊢
      exact h.keystream_bit k t0 t1 tc h0 h1 hc
    · simp only [if_neg hk] at h0 h1 hc ⊢
      cases hj : k - c.KS.length with
      | zero =>
        rw [hj] at h0 h1 hc
        cases h0
        cases h1
        cases hc
        rfl
      | succ j =>
        rw [hj] at h0
        cases h0

theorem CoreInv.locksteps {c : CoreState} (h : CoreInv c) (n : Nat) : CoreInv (locksteps n c) := by
  induction n generalizing c with
  | zero => exact h
  | succ n ih => exact ih h.lockstep

theorem CoreInv.keystream {c : CoreState} (h : CoreInv c) (n : Nat) : CoreInv (keystream n c) :=
  h.clearKeystream.locksteps n

/-- A command that completes keeps the invariant of a core. -/
theorem CoreInv.effect {i : Instr} {c : CoreState} (h : CoreInv c) (hok : errorOf i c = .ok) :
    CoreInv (effect i c) := by
  cases i with
  | lstep r => exact h.setReg r (h.length_nxt r)
  | lreset r => exact h.setReg r (h.init_length r)
  | lload r v =>
    cases v with
    | vector v => exact h.setReg r (by simpa [errorOf] using hok)
    | unassembled len data => exact h
  | lread r => exact h
  | combine b0 b1 ctl => exact h
  | gstep => exact h.lockstep
  | generate n => exact h.keystream n
  | greset => exact h.of_registers rfl rfl rfl h.init_length
  | inclr => exact h.of_registers rfl rfl rfl h.reg_length
  | inld v => exact h.of_registers rfl rfl rfl h.reg_length
  | apply => exact h.of_registers rfl rfl rfl h.reg_length
  | crypt n =>
    have hks := h.keystream n
    exact hks.of_registers rfl rfl rfl hks.reg_length

/-! ### The capacity of the buffers (20_memory.md R48) -/

/-- Empty buffers fit every capacity. -/
theorem withinCapacity_freshCore (p : Params) (cfg : Configuration) : WithinCapacity p (freshCore cfg) where
  ks := fitsCapacity_zero p
  inp := fitsCapacity_zero p
  out := fitsCapacity_zero p
  tr := by intro r; cases r <;> exact fitsCapacity_zero p

theorem trace_length_lt_grownLength (c : CoreState) (r : Reg) : (c.TR.get r).length < grownLength c := by
  cases r <;> simp [grownLength]

/-- The keystream and the traces grow by one element, within the length that GSTEP asks for. -/
theorem WithinCapacity.lockstep {p : Params} {c : CoreState} (h : WithinCapacity p c)
    (hfit : fitsCapacity p (grownLength c) = true) : WithinCapacity p (lockstep c).1 where
  ks := fitsCapacity_le hfit (by simp [lockstep_core, grownLength])
  inp := h.inp
  out := h.out
  tr := by
    intro r
    rw [lockstep_core, PerReg.get_ofFn, List.length_append]
    exact fitsCapacity_le hfit (trace_length_lt_grownLength c r)

theorem WithinCapacity.keystream {p : Params} {c : CoreState} (h : WithinCapacity p c) {n : Nat}
    (hfit : fitsCapacity p n = true) : WithinCapacity p (keystream n c) where
  ks := by rw [keystream_KS_length]; exact hfit
  inp := by rw [keystream_IN]; exact h.inp
  out := by rw [keystream_OUT]; exact h.out
  tr := by intro r; rw [keystream_TR_length]; exact hfit

/-- The XOR of two sequences is no longer than the first. -/
theorem xorseq_length_le (p k : Bits) : (xorseq p k).length ≤ p.length := by
  simp [xorseq]

/-- A command that completes within the capacity it needs leaves buffers that fit. -/
theorem WithinCapacity.effect {p : Params} {i : Instr} {c : CoreState} (h : WithinCapacity p c)
    (hfit : fitsCapacity p (neededCapacity i c) = true) : WithinCapacity p (effect i c) := by
  have hxor (k : Bits) : fitsCapacity p (xorseq c.IN k).length = true :=
    fitsCapacity_le h.inp (xorseq_length_le c.IN k)
  cases i with
  | lstep | lreset | lread | combine | greset => exact ⟨h.ks, h.inp, h.out, h.tr⟩
  | lload r v => cases v <;> exact ⟨h.ks, h.inp, h.out, h.tr⟩
  | gstep => exact h.lockstep hfit
  | generate n => exact h.keystream hfit
  | inclr => exact ⟨h.ks, fitsCapacity_zero p, h.out, h.tr⟩
  | inld v => exact ⟨h.ks, List.length_append (as := c.IN) ▸ hfit, h.out, h.tr⟩
  | apply => exact ⟨h.ks, h.inp, hxor c.KS, h.tr⟩
  | crypt n =>
    obtain ⟨hks, hinp, -, htr⟩ := h.keystream hfit
    exact ⟨hks, hinp, hxor _, htr⟩

/-! ### The invariant of the machine -/

/-- The invariant speaks of the core and the parameters only. -/
theorem Inv.congr {s t : State} (h : Inv s) (hcore : t.core = s.core) (hparams : t.params = s.params) : Inv t := by
  unfold Inv
  rw [hcore, hparams]
  exact h

/-- A state whose core has just been constructed, with a well-formed configuration of the encoded interface. -/
theorem inv_of_fresh {s : State} {raw : RawConfig} (hcore : s.core = some (freshCore (latch raw)))
    (hcfg : cfgOk raw = true) (hwidth : raw.width ≤ 16) : Inv s := by
  intro c hc
  obtain rfl : freshCore (latch raw) = c := Option.some.inj (hcore.symm.trans hc)
  obtain ⟨hpos, hregs⟩ := (cfgOk_iff raw).mp hcfg
  have hinit (r : Reg) : (raw.init.get r).length = raw.width := (hregs r).right
  refine ⟨.of_empty_traces hpos (fun r => ?masks) hinit hinit rfl rfl, withinCapacity_freshCore _ _, hwidth⟩
  case masks => rw [freshCore_cfg, latch_T_get, tapMask_length, latch_W]

theorem exec_keeps_inv {i : Instr} {s t : State} (hs : Inv s) (h : exec i s = .next t) : Inv t := by
  obtain ⟨c, hc, ⟨hok, hfit, rfl⟩ | ⟨-, rfl⟩⟩ := exec_next h
  · obtain ⟨hinv, hcap, hwidth⟩ := hs c hc
    intro d hd
    cases hd
    exact ⟨hinv.effect hok, hcap.effect hfit, by rwa [effect_cfg]⟩
  · exact hs.congr rfl rfl

/-- A command word at the port: the command it decodes to, or a fault. -/
theorem runCommand_keeps_inv {w : CommandWord} {s t : State} (hs : Inv s) (h : runCommand w s = .next t) :
    Inv t := by
  obtain ⟨c, hc, -⟩ := onCore_next h
  cases hd : decode w with
  | ok i =>
    rw [runCommand_legal hc hd] at h
    exact exec_keeps_inv hs h
  | error e =>
    rw [runCommand_illegal hc hd] at h
    cases h
    exact hs.congr rfl rfl

/-- A construction establishes the invariant, whatever the state before it was. -/
theorem constructEvent_inv {raw : RawConfig} {s t : State} (h : constructEvent raw s = .next t) : Inv t := by
  rw [constructEvent_eq] at h
  split at h
  next hcfg =>
    split at h
    next hwidth =>
      cases h
      exact inv_of_fresh rfl hcfg hwidth
    next => cases h
  next =>
    cases h
    intro c hc
    cases hc

/-- Settles O53: nothing presented, a command, or a construction. -/
theorem everyStepKeepsTheInvariant : Obligations.EveryStepKeepsTheInvariant := by
  intro s t hs h
  cases hp : s.port with
  | nil =>
    rw [step_waiting hp] at h
    cases h
    exact hs
  | cons a rest =>
    have hs' : Inv { s with port := rest } := hs.congr rfl rfl
    cases a with
    | command w => exact runCommand_keeps_inv hs' (step_command hp ▸ h)
    | construct raw => exact constructEvent_inv (step_construct hp ▸ h)

/-- Settles O54: reset is a construction with the reference configuration, whose width is 4. -/
theorem resetMeetsTheInvariant : Obligations.ResetMeetsTheInvariant := by
  have hcore : State.reset.core = some (freshCore (latch Config.reference)) :=
    congrArg State.core reset_eq_freshCore
  exact inv_of_fresh hcore cfgOk_reference (by decide)

/-! ### The packed step record (R28) and the observation port (R30) -/

/-- Packing puts the first sequence above the second. -/
theorem pk_append (u v : Bits) : pk (u ++ v) = pk u * 2 ^ v.length + pk v := by
  induction u with
  | nil => simp [pk]
  | cons b u ih =>
    simp only [List.cons_append, pk, ih, List.length_append, pow_add]
    ring

/-- A packed record is the packing of its bits in order: out, old, new. -/
theorem packRecord_eq_pk {W : Nat} {t : StepRec} (hold : t.old.length = W) (hnew : t.new.length = W) :
    packRecord W t = pk (t.out :: t.old ++ t.new) := by
  rw [List.cons_append, pk, pk_append, List.length_append, hold, hnew, packRecord, two_mul, Nat.add_assoc]

/-- Settles O57. -/
theorem packedRecordHoldsOutOldNew : Obligations.PackedRecordHoldsOutOldNew := by
  intro W t hold hnew
  have hlen : (t.out :: t.old ++ t.new).length = 2 * W + 1 := by simp [hold, hnew]; omega
  rw [packRecord_eq_pk hold hnew, ← hlen]
  exact ⟨pk_lt _, unpk_pk _⟩

/-- An unbounded counter is shown as it is. -/
theorem observedLen_unbounded {p : Params} (h : p.lenWidth = none) (len : Nat) : observedLen p len = len := by
  simp [observedLen, h]

/-- A counter of finite width is shown as it is while it fits (log 11). -/
theorem observedLen_fits {p : Params} {k len : Nat} (h : p.lenWidth = some k) (hlen : len < 2 ^ k) :
    observedLen p len = len := by
  simp [observedLen, h, hlen]

/-- What a counter of finite width shows always fits it (log 11). -/
theorem observedLen_lt {p : Params} {k : Nat} (h : p.lenWidth = some k) (len : Nat) :
    observedLen p len < 2 ^ k := by
  by_cases hlen : len < 2 ^ k
  · rwa [observedLen_fits h hlen]
  · simp only [observedLen, h, if_neg hlen]
    exact BitVec.isLt _

/-- Settles O56: the observation is `observeCore` of the core, read field by field. -/
theorem observationShowsTheCore : Obligations.ObservationShowsTheCore := by
  refine fun s => ⟨fun c hc => ?built, fun hc => ?unbuilt⟩
  case built =>
    have hobs : observe s = some (observeCore s.params c) := by rw [observe, hc, Option.map_some]
    exact ⟨observeCore s.params c, hobs, rfl, rfl, rfl, rfl, rfl, rfl, rfl, rfl, rfl, rfl, rfl,
      fun r => ⟨PerReg.get_ofFn _ r, warnBits_get_eq_true c r⟩,
      fun hunbounded => observedLen_unbounded hunbounded c.LEN,
      fun k hwidth => ⟨observedLen_fits hwidth, observedLen_lt hwidth c.LEN⟩⟩
  case unbuilt => rw [observe, hc, Option.map_none]

end Sys2Proof.Machine

/-!
PROOFS. The statements of spec/20_memory.md: the write columns of the buffer table (R46), the capacity of finite
buffers (R48), and runs as compositions of commands (R49). First the two ways a command stops, each as an
equivalence; then what `effect` leaves of each buffer, what overfills a buffer, and that the decoder reads back the
word of every command.
-/

namespace Sys2Proof.Machine

/-! ### How a command stops -/

theorem withCapacity_refused_iff {s : State} {n : Nat} {run : Host.Outcome State Fault Refusal} {e : Refusal} :
    withCapacity s n run = .refused e ↔
      (fitsCapacity s.params n = false ∧ e = .bufferCapacity) ∨
        (fitsCapacity s.params n = true ∧ run = .refused e) := by
  cases hfit : fitsCapacity s.params n <;> simp [withCapacity, hfit, eq_comm]

/-- On the core `c`, a command is refused exactly if it raises no fault and needs more than the capacity, and
always as `bufferCapacity` (R48). -/
theorem exec_refused_on {i : Instr} {s : State} {c : CoreState} {e : Refusal} (hc : s.core = some c) :
    exec i s = .refused e ↔
      errorOf i c = .ok ∧ fitsCapacity s.params (neededCapacity i c) = false ∧ e = .bufferCapacity := by
  rw [exec_built i hc]
  by_cases hok : errorOf i c = .ok <;> simp [hok, withCapacity_refused_iff]

/-- A command stops with a fault exactly on an unbuilt core. -/
theorem exec_fault_iff {i : Instr} {s : State} {e : Fault} :
    exec i s = .fault e ↔ s.core = none ∧ e = .unbuiltCore := by
  cases hc : s.core with
  | none => simp [exec_unbuilt i hc]
  | some c =>
    rw [exec_built i hc, withCapacity]
    split_ifs <;> simp

/-! ### The write columns of the buffer table (R46) -/

/-- The keystream and the traces change only by a lockstep step. -/
theorem effect_KS_TR {i : Instr} (c : CoreState) (h : mayWriteKeystream i = false) :
    (effect i c).KS = c.KS ∧ (effect i c).TR = c.TR := by
  cases i with
  | gstep | generate | crypt => exact nomatch h
  | lload r v => cases v <;> exact ⟨rfl, rfl⟩
  | _ => exact ⟨rfl, rfl⟩

theorem effect_IN {i : Instr} (c : CoreState) (h : mayWriteInput i = false) : (effect i c).IN = c.IN := by
  cases i with
  | inclr | inld => exact nomatch h
  | lload r v => cases v <;> rfl
  | generate n => exact keystream_IN n c
  | crypt n => exact keystream_IN n c
  | _ => rfl

theorem effect_OUT {i : Instr} (c : CoreState) (h : mayWriteOutput i = false) : (effect i c).OUT = c.OUT := by
  cases i with
  | apply | crypt => exact nomatch h
  | lload r v => cases v <;> rfl
  | generate n => exact keystream_OUT n c
  | _ => rfl

/-- Settles O39: the effect of such a command leaves the buffer, and a fault leaves the core. -/
theorem onlyTheListedCommandsWriteABuffer : Obligations.OnlyTheListedCommandsWriteABuffer := by
  intro i s t c hc h
  obtain ⟨-, -, rfl⟩ | ⟨-, rfl⟩ := exec_next_on hc h
  · exact ⟨effect i c, rfl, effect_KS_TR c, effect_IN c, effect_OUT c⟩
  · exact ⟨c, hc, fun _ => ⟨rfl, rfl⟩, fun _ => rfl, fun _ => rfl⟩

/-! ### What overfills a buffer (R48) -/

theorem fitsCapacity_eq_true_iff {p : Params} {cap : Nat} (h : p.bufCap = some cap) (n : Nat) :
    fitsCapacity p n = true ↔ n ≤ cap := by
  simp [fitsCapacity, h]

theorem fitsCapacity_eq_false_iff {p : Params} {cap : Nat} (h : p.bufCap = some cap) (n : Nat) :
    fitsCapacity p n = false ↔ cap < n := by
  simp [fitsCapacity, h]

/-- The traces are as long as the keystream, so a lockstep step makes no buffer longer than it (R28). -/
theorem CoreInv.grownLength_eq {c : CoreState} (h : CoreInv c) : grownLength c = c.KS.length + 1 := by
  have h0 : c.TR.g0.length = c.KS.length := h.trace_length .g0
  have h1 : c.TR.g1.length = c.KS.length := h.trace_length .g1
  have hct : c.TR.ct.length = c.KS.length := h.trace_length .ct
  simp [grownLength, h0, h1, hct]

/-- The commands that complete but for the capacity, and need more than `cap` while `IN` is within it: the XOR of
APPLY and CRYPT is as long as `IN`, so these two need no more than there is (43_cipher.md R133, R134). -/
theorem overfills_iff {c : CoreState} {cap : Nat} (hinv : CoreInv c) (hin : c.IN.length ≤ cap) (i : Instr) :
    (errorOf i c = .ok ∧ cap < neededCapacity i c) ↔
      (i = .gstep ∧ cap < c.KS.length + 1) ∨
      (∃ n, i = .generate n ∧ cap < n) ∨
      ∃ v, i = .inld v ∧ cap < c.IN.length + v.length := by
  cases i with
  | gstep => simp [errorOf, neededCapacity, hinv.grownLength_eq]
  | generate n =>
    have hpos : cap < n → n ≠ 0 := Nat.ne_zero_of_lt
    simpa [errorOf, neededCapacity] using hpos
  | inld v => simp [errorOf, neededCapacity]
  | apply => simp [neededCapacity, hin]
  | crypt n =>
    have hfits : errorOf (.crypt n) c = .ok → n ≤ cap := by
      intro hok
      by_cases hlen : c.IN.length = n
      · exact hlen ▸ hin
      · by_cases hzero : n = 0 <;> simp [errorOf, hlen, hzero] at hok
    simpa [neededCapacity] using hfits
  | _ => simp [neededCapacity]

/-- Settles O45: refused is what raises no fault and overfills a buffer, and there is no other refusal. -/
theorem overfullBufferIsRefused : Obligations.OverfullBufferIsRefused := by
  intro s c cap hc hinv hcap hbuf
  refine ⟨fun i => ?overfull, fun i e h => ?reason⟩
  case overfull =>
    have hin : c.IN.length ≤ cap := (fitsCapacity_eq_true_iff hbuf _).mp hcap.inp
    rw [exec_refused_on hc, fitsCapacity_eq_false_iff hbuf, ← overfills_iff hinv hin i]
    simp
  case reason =>
    obtain ⟨-, -, he⟩ := (exec_refused_on hc).mp h
    exact he

/-! ### The word of a command is read back (30_encoding.md R62 to R65) -/

theorem decodeReg_regNumber (op : BitVec 4) (r : Reg) (mk : Reg → Instr) :
    decodeReg ⟨op, regNumber r, 0, 0, 0⟩ mk = .ok (mk r) := by
  simp [decodeReg, Fields.lenZero]

theorem decodePlain_zero (op : BitVec 4) (i : Instr) : decodePlain ⟨op, 0, 0, 0, 0⟩ i = .ok i := rfl

theorem toNat_ofNat_of_lt {w n : Nat} (h : n < 2 ^ w) : (BitVec.ofNat w n).toNat = n :=
  (BitVec.toNat_ofNat n w).trans (Nat.mod_eq_of_lt h)

theorem decodeCount_ofNat (op : BitVec 4) {n : Nat} (mk : Nat → Instr) (h : countOk n = true) :
    decodeCount ⟨op, 0, 0, 0, BitVec.ofNat 16 n⟩ mk = .ok (mk n) := by
  have hn : (BitVec.ofNat 16 n).toNat = n := toNat_ofNat_of_lt (of_decide_eq_true h)
  simp [decodeCount, Fields.selZero, Fields.lenZero, hn]

/-- Three packed bits stand in `data[2:0]`, the first highest, with nothing above them (R65). -/
theorem data_pk_three (b0 b1 c : Bit) :
    (BitVec.ofNat 16 (pk [b0, b1, c])).getLsbD 2 = b0 ∧ (BitVec.ofNat 16 (pk [b0, b1, c])).getLsbD 1 = b1 ∧
      (BitVec.ofNat 16 (pk [b0, b1, c])).getLsbD 0 = c ∧ BitVec.ofNat 16 (pk [b0, b1, c]) >>> 3 = 0 := by
  decide +revert

theorem decodeCombine_pk (op : BitVec 4) (b0 b1 c : Bit) :
    decodeCombine ⟨op, 0, 0, 0, BitVec.ofNat 16 (pk [b0, b1, c])⟩ = .ok (.combine b0 b1 c) := by
  obtain ⟨h0, h1, hctl, habove⟩ := data_pk_three b0 b1 c
  simp only [decodeCombine, Fields.selZero, Fields.lenZero, h0, h1, hctl, habove]
  rfl

theorem vectorOk_iff (v : Bits) : vectorOk v = true ↔ 1 ≤ v.length ∧ v.length ≤ 16 := by
  simp [vectorOk]

/-- The length of a vector that a word can carry fits `len` (R63). -/
theorem toNat_length_of_vectorOk {v : Bits} (h : vectorOk v = true) : (BitVec.ofNat 5 v.length).toNat = v.length := by
  obtain ⟨-, hle⟩ := (vectorOk_iff v).mp h
  exact toNat_ofNat_of_lt (by omega)

theorem toNat_pk_of_vectorOk {v : Bits} (h : vectorOk v = true) : (BitVec.ofNat 16 (pk v)).toNat = pk v :=
  toNat_ofNat_of_lt (pk_lt_of_vectorOk h)

theorem assembles_length_of_vectorOk {v : Bits} (h : vectorOk v = true) :
    assembles (BitVec.ofNat 5 v.length) = true := by
  rw [assembles_iff, toNat_length_of_vectorOk h]
  exact (vectorOk_iff v).mp h

/-- A packed vector has no bit at or above its length (R63). -/
theorem dataBelow_pk_of_vectorOk {v : Bits} (h : vectorOk v = true) :
    dataBelow (BitVec.ofNat 5 v.length) (BitVec.ofNat 16 (pk v)) = true := by
  obtain ⟨-, hle⟩ := (vectorOk_iff v).mp h
  have hzero : BitVec.ofNat 16 (pk v) >>> v.length = 0 := by
    apply BitVec.eq_of_toNat_eq
    rw [BitVec.toNat_ushiftRight, toNat_pk_of_vectorOk h, Nat.shiftRight_eq_div_pow, Nat.div_eq_of_lt (pk_lt v)]
    rfl
  rw [dataBelow, toNat_length_of_vectorOk h, Nat.min_eq_left hle, hzero]
  rfl

/-- The vector assembled from the fields a vector is written with is that vector (R63). -/
theorem unpk_fields_of_vectorOk {v : Bits} (h : vectorOk v = true) :
    unpk (BitVec.ofNat 5 v.length).toNat (BitVec.ofNat 16 (pk v)).toNat = v := by
  rw [toNat_length_of_vectorOk h, toNat_pk_of_vectorOk h, unpk_pk]

theorem decodeInput_vector (op : BitVec 4) {v : Bits} (h : vectorOk v = true) :
    decodeInput ⟨op, 0, BitVec.ofNat 5 v.length, 0, BitVec.ofNat 16 (pk v)⟩ = .ok (.inld v) := by
  simp only [decodeInput, Fields.selZero, Fields.dataFits, Fields.vector, assembles_length_of_vectorOk h,
    dataBelow_pk_of_vectorOk h, unpk_fields_of_vectorOk h]
  rfl

/-- An operand of LLOAD that a word can carry fits the fields it is written with. -/
theorem dataBelow_of_loadOperandOk {v : LoadOperand} (h : loadOperandOk v = true) :
    dataBelow v.lenField v.dataField = true := by
  cases v with
  | vector v => exact dataBelow_pk_of_vectorOk h
  | unassembled len data => exact (Bool.and_eq_true_iff.mp h).right

/-- The operand of LLOAD, with a vector or without one (log 13), is read back from its fields. -/
theorem loadOperand_of_loadOperandOk (op : BitVec 4) (sel : BitVec 2) {v : LoadOperand}
    (h : loadOperandOk v = true) : Fields.loadOperand ⟨op, sel, v.lenField, 0, v.dataField⟩ = v := by
  cases v with
  | vector v =>
    have hvector : Fields.loadOperand ⟨op, sel, BitVec.ofNat 5 v.length, 0, BitVec.ofNat 16 (pk v)⟩ =
        .vector (unpk (BitVec.ofNat 5 v.length).toNat (BitVec.ofNat 16 (pk v)).toNat) :=
      if_pos (assembles_length_of_vectorOk h)
    exact hvector.trans (congrArg LoadOperand.vector (unpk_fields_of_vectorOk h))
  | unassembled len data =>
    have hlen : assembles len = false := Bool.not_eq_eq_eq_not.mp (Bool.and_eq_true_iff.mp h).left
    simp [Fields.loadOperand, LoadOperand.lenField, LoadOperand.dataField, hlen]

theorem decodeLoad_operand (op : BitVec 4) (r : Reg) {v : LoadOperand} (h : loadOperandOk v = true) :
    decodeLoad ⟨op, regNumber r, v.lenField, 0, v.dataField⟩ = .ok (.lload r v) := by
  simp only [decodeLoad, selectReg_regNumber, Fields.dataFits, dataBelow_of_loadOperandOk h,
    loadOperand_of_loadOperandOk op _ h]
  rfl

/-- Every command that a word can carry is read back from its word (R66, R67). -/
theorem decode_encode {i : Instr} (h : i.wf = true) : decode (encode i) = .ok i := by
  rw [encode, decode_joinWord]
  cases i with
  | lstep r => exact decodeReg_regNumber _ r _
  | lreset r => exact decodeReg_regNumber _ r _
  | lload r v => exact decodeLoad_operand _ r h
  | lread r => exact decodeReg_regNumber _ r _
  | combine b0 b1 c => exact decodeCombine_pk _ b0 b1 c
  | generate n => exact decodeCount_ofNat _ _ h
  | inld v => exact decodeInput_vector _ h
  | crypt n => exact decodeCount_ofNat _ _ h
  | gstep | greset | inclr | apply => exact decodePlain_zero _ _

/-! ### Runs of presented commands (R49) -/

/-- The word of a command, at a core built or not, runs the command. -/
theorem runCommand_encode {i : Instr} (h : i.wf = true) (s : State) : runCommand (encode i) s = exec i s := by
  cases hc : s.core with
  | none => rw [runCommand_unbuilt hc, exec_unbuilt i hc]
  | some c => exact runCommand_legal hc (decode_encode h)

/-- The first step of a run takes the first of the presented commands and leaves the others presented. -/
theorem step_presenting_cons {i : Instr} (h : i.wf = true) (is : List Instr) (s : State) :
    step (presenting (i :: is) s) = exec i (presenting is s) :=
  (step_command rfl).trans (runCommand_encode h _)

/-- What waits at the port makes no difference to a command, and it stays there. -/
theorem exec_presenting_of_next {i : Instr} {s t : State} (is : List Instr) (h : exec i s = .next t) :
    exec i (presenting is s) = .next (presenting is t) := by
  obtain ⟨c, hc, ⟨hok, hfit, rfl⟩ | ⟨hfault, rfl⟩⟩ := exec_next h
  · exact exec_completes (s := presenting is s) hc hok hfit
  · exact exec_faults (s := presenting is s) hc hfault

theorem exec_presenting_of_fault {i : Instr} {s : State} {e : Fault} (is : List Instr) (h : exec i s = .fault e) :
    exec i (presenting is s) = .fault e :=
  exec_fault_iff.mpr ((exec_fault_iff (s := s)).mp h)

theorem exec_presenting_of_refused {i : Instr} {s : State} {e : Refusal} (is : List Instr)
    (h : exec i s = .refused e) : exec i (presenting is s) = .refused e := by
  cases hc : s.core with
  | none => rw [exec_unbuilt i hc] at h; cases h
  | some c => exact (exec_refused_on (s := presenting is s) hc).mpr ((exec_refused_on hc).mp h)

theorem exec_next_port {i : Instr} {s t : State} (h : exec i s = .next t) : t.port = s.port := by
  obtain ⟨c, hc, -⟩ := exec_next h
  obtain ⟨-, hport, -⟩ := commandsKeepTheConfiguration i s t c hc h
  exact hport

theorem execAll_cons_of_fault {i : Instr} {is : List Instr} {s : State} {e : Fault} (h : exec i s = .fault e) :
    execAll (i :: is) s = .fault e := by
  simp [execAll, h]

theorem execAll_cons_of_refused {i : Instr} {is : List Instr} {s : State} {e : Refusal}
    (h : exec i s = .refused e) : execAll (i :: is) s = .refused e := by
  simp [execAll, h]

/-- With nothing at the port of `s`, the run that presents a list of commands is their composition. -/
theorem run_presenting {is : List Instr} {s : State} (hwf : ∀ i ∈ is, i.wf = true) (hp : s.port = []) :
    core.run is.length (presenting is s) = execAll is s := by
  induction is generalizing s with
  | nil => exact congrArg (fun port => Host.Outcome.next { s with port }) hp.symm
  | cons i is ih =>
    obtain ⟨hi, his⟩ := List.forall_mem_cons.mp hwf
    have hstep := step_presenting_cons hi is s
    rw [List.length_cons]
    cases hexec : exec i s with
    | next t =>
      have hrest : core.run is.length (presenting is t) = execAll is t := ih his ((exec_next_port hexec).trans hp)
      have hfirst := run_of_next (k := is.length) (hstep.trans (exec_presenting_of_next is hexec))
      exact (hfirst.trans hrest).trans (execAll_cons hexec).symm
    | fault e =>
      have hfirst := run_of_fault (k := is.length) (hstep.trans (exec_presenting_of_fault is hexec))
      exact hfirst.trans (execAll_cons_of_fault hexec).symm
    | refused e =>
      have hfirst := run_of_refused (k := is.length) (hstep.trans (exec_presenting_of_refused is hexec))
      exact hfirst.trans (execAll_cons_of_refused hexec).symm

/-- Settles O51: presenting replaces the port, so it is the same from `s` with its port emptied. -/
theorem runIsTheCompositionOfCommands : Obligations.RunIsTheCompositionOfCommands :=
  fun _ s hwf => run_presenting (s := { s with port := [] }) hwf rfl

end Sys2Proof.Machine

/-!
PROOFS. The statements of spec/30_encoding.md: the round trips between words and commands (R60 to R66), the rows of
match and mask (R66, R67), the vector operand (R63), INSET (R70), the response port (R71), and the widths of
constructed cores (R72). First that the decoder writes back what it reads, one lemma for each form of row.
-/

namespace Sys2Proof.Machine

/-! ### Decoding loses no bit of a word (R60 to R66) -/

/-- The fields a command is written with (R60). -/
def wordFields (i : Instr) : Fields := ⟨i.opcode, i.selField, i.lenField, 0, i.dataField⟩

theorem encode_eq_joinWord (i : Instr) : encode i = joinWord (wordFields i) := rfl

/-- Settles O2: the fields of each row are read back as the operands they were written from. -/
theorem decodeOfEncodeIsTheCommand : Obligations.DecodeOfEncodeIsTheCommand :=
  fun _ hwf => decode_encode hwf

theorem ofNat_toNat_same {w : Nat} (x : BitVec w) : BitVec.ofNat w x.toNat = x := by
  rw [BitVec.ofNat_toNat, BitVec.setWidth_eq]

theorem op_eq_ofNat {f : Fields} {k : Nat} (h : f.op.toNat = k) : f.op = BitVec.ofNat 4 k := by
  rw [← h, ofNat_toNat_same]

/-- A vector read from fields that assemble one is a vector that a word can carry. -/
theorem vectorOk_vector {f : Fields} (h : assembles f.len = true) : vectorOk f.vector = true := by
  rw [vectorOk_iff, Fields.vector, unpk_length]
  exact (assembles_iff f.len).mp h

/-- The length of the vector that `len` and `data` carry is `len`. -/
theorem ofNat_length_vector (f : Fields) : BitVec.ofNat 5 f.vector.length = f.len := by
  rw [Fields.vector, unpk_length, ofNat_toNat_same]

/-- The vector that `len` and `data` carry packs to `data`, which has no bit outside it (R63). -/
theorem ofNat_pk_vector {f : Fields} (hlen : assembles f.len = true) (hfits : f.dataFits = true) :
    BitVec.ofNat 16 (pk f.vector) = f.data := by
  obtain ⟨-, hle⟩ := (assembles_iff f.len).mp hlen
  have hlt : f.data.toNat < 2 ^ f.len.toNat := Nat.min_eq_left hle ▸ data_lt_of_dataFits hfits
  rw [Fields.vector, pk_unpk hlt, ofNat_toNat_same]

/-- The three bits of COMBINE pack to `data`, which has no bit above them (R65). -/
theorem ofNat_pk_three {data : BitVec 16} (h : data >>> 3 = 0) :
    BitVec.ofNat 16 (pk [data.getLsbD 2, data.getLsbD 1, data.getLsbD 0]) = data := by
  have hlt : data.toNat < 2 ^ 3 := by
    have hnat := congrArg BitVec.toNat h
    simp only [BitVec.toNat_ushiftRight, Nat.shiftRight_eq_div_pow] at hnat
    exact (Nat.div_eq_zero_iff_lt (by decide)).mp hnat
  calc BitVec.ofNat 16 (pk (unpk 3 data.toNat)) = BitVec.ofNat 16 data.toNat := by rw [pk_unpk hlt]
    _ = data := ofNat_toNat_same data

/-- The operand of LLOAD, a vector or the two fields themselves (log 13), carries `len` and `data` whole. -/
theorem loadOperand_carries {f : Fields} (hfits : f.dataFits = true) :
    loadOperandOk f.loadOperand = true ∧ f.loadOperand.lenField = f.len ∧ f.loadOperand.dataField = f.data := by
  by_cases hlen : assembles f.len = true
  · have hvector : f.loadOperand = .vector f.vector := if_pos hlen
    rw [hvector]
    exact ⟨vectorOk_vector hlen, ofNat_length_vector f, ofNat_pk_vector hlen hfits⟩
  · have hfields : f.loadOperand = .unassembled f.len f.data := if_neg hlen
    have hfits' : dataBelow f.len f.data = true := hfits
    rw [hfields]
    exact ⟨by simp [loadOperandOk, hlen, hfits'], rfl, rfl⟩

theorem fields_eq_mk {f : Fields} {op : BitVec 4} {sel : BitVec 2} {len zero : BitVec 5} {data : BitVec 16}
    (hop : f.op = op) (hsel : f.sel = sel) (hlen : f.len = len) (hzero : f.zero = zero) (hdata : f.data = data) :
    f = ⟨op, sel, len, zero, data⟩ := by
  subst hop hsel hlen hzero hdata
  rfl

/-- The command is well-formed and is written with just these fields. -/
def WritesBack (f : Fields) (i : Instr) : Prop := i.wf = true ∧ wordFields i = f

theorem decodeReg_writesBack {f : Fields} {k : Nat} {mk : Reg → Instr} {i : Instr} (hop : f.op.toNat = k)
    (h : decodeReg f mk = .ok i) (hmk : ∀ r, WritesBack ⟨BitVec.ofNat 4 k, regNumber r, 0, 0, 0⟩ (mk r)) :
    WritesBack f i := by
  obtain ⟨r, rfl, hsel, hlen, hzero, hdata⟩ := decodeReg_ok h
  rw [fields_eq_mk (op_eq_ofNat hop) hsel hlen hzero hdata]
  exact hmk r

theorem decodePlain_writesBack {f : Fields} {k : Nat} {i j : Instr} (hop : f.op.toNat = k)
    (h : decodePlain f j = .ok i) (hj : WritesBack ⟨BitVec.ofNat 4 k, 0, 0, 0, 0⟩ j) : WritesBack f i := by
  obtain ⟨rfl, hsel, hlen, hzero, hdata⟩ := decodePlain_ok h
  rwa [fields_eq_mk (op_eq_ofNat hop) hsel hlen hzero hdata]

/-- Every 16-bit `data` is a count (R64). -/
theorem decodeCount_writesBack {f : Fields} {k : Nat} {mk : Nat → Instr} {i : Instr} (hop : f.op.toNat = k)
    (h : decodeCount f mk = .ok i)
    (hmk : ∀ n, countOk n = true → WritesBack ⟨BitVec.ofNat 4 k, 0, 0, 0, BitVec.ofNat 16 n⟩ (mk n)) :
    WritesBack f i := by
  obtain ⟨rfl, hsel, hlen, hzero⟩ := decodeCount_ok h
  have hdata : f.data = BitVec.ofNat 16 f.data.toNat := (ofNat_toNat_same _).symm
  have hcount := hmk f.data.toNat (decide_eq_true f.data.isLt)
  rwa [← fields_eq_mk (op_eq_ofNat hop) hsel hlen hzero hdata] at hcount

theorem decodeCombine_writesBack {f : Fields} {i : Instr} (hop : f.op.toNat = 5) (h : decodeCombine f = .ok i) :
    WritesBack f i := by
  obtain ⟨rfl, hsel, hlen, hzero, habove⟩ := decodeCombine_ok h
  exact ⟨rfl, (fields_eq_mk (op_eq_ofNat hop) hsel hlen hzero (ofNat_pk_three habove).symm).symm⟩

theorem decodeLoad_writesBack {f : Fields} {i : Instr} (hop : f.op.toNat = 3) (h : decodeLoad f = .ok i) :
    WritesBack f i := by
  obtain ⟨r, rfl, hsel, hzero, hfits⟩ := decodeLoad_ok h
  obtain ⟨hok, hlen, hdata⟩ := loadOperand_carries hfits
  exact ⟨hok, (fields_eq_mk (op_eq_ofNat hop) hsel hlen.symm hzero hdata.symm).symm⟩

theorem decodeInput_writesBack {f : Fields} {i : Instr} (hop : f.op.toNat = 10) (h : decodeInput f = .ok i) :
    WritesBack f i := by
  obtain ⟨rfl, hsel, hzero, hpos, hle, hfits⟩ := decodeInput_ok h
  have hassembles : assembles f.len = true := (assembles_iff f.len).mpr ⟨hpos, hle⟩
  exact ⟨vectorOk_vector hassembles, (fields_eq_mk (op_eq_ofNat hop) hsel (ofNat_length_vector f).symm hzero
    (ofNat_pk_vector hassembles hfits).symm).symm⟩

/-- A command that the decoder reads from fields is written with those fields: one case for each opcode (R66). -/
theorem writesBack_of_decode {f : Fields} {i : Instr} (h : decode (joinWord f) = .ok i) : WritesBack f i := by
  rw [decode_joinWord] at h
  split at h
  next hop => exact decodeReg_writesBack hop h (fun _ => ⟨rfl, rfl⟩)
  next hop => exact decodeReg_writesBack hop h (fun _ => ⟨rfl, rfl⟩)
  next hop => exact decodeLoad_writesBack hop h
  next hop => exact decodeReg_writesBack hop h (fun _ => ⟨rfl, rfl⟩)
  next hop => exact decodeCombine_writesBack hop h
  next hop => exact decodePlain_writesBack hop h ⟨rfl, rfl⟩
  next hop => exact decodeCount_writesBack hop h (fun _ hn => ⟨hn, rfl⟩)
  next hop => exact decodePlain_writesBack hop h ⟨rfl, rfl⟩
  next hop => exact decodePlain_writesBack hop h ⟨rfl, rfl⟩
  next hop => exact decodeInput_writesBack hop h
  next hop => exact decodePlain_writesBack hop h ⟨rfl, rfl⟩
  next hop => exact decodeCount_writesBack hop h (fun _ hn => ⟨hn, rfl⟩)
  next => cases h

/-- The decoder reads a command exactly from its own word. -/
theorem decode_eq_ok_iff {w : CommandWord} {i : Instr} : decode w = .ok i ↔ i.wf = true ∧ encode i = w := by
  constructor
  case mp =>
    intro h
    rw [← joinWord_splitWord w] at h
    obtain ⟨hwf, hfields⟩ := writesBack_of_decode h
    exact ⟨hwf, by rw [encode_eq_joinWord, hfields, joinWord_splitWord]⟩
  case mpr =>
    rintro ⟨hwf, rfl⟩
    exact decode_encode hwf

/-- Settles O3: what a row reads is written back with the same fields, and a word is its fields. -/
theorem encodeOfDecodeIsTheWord : Obligations.EncodeOfDecodeIsTheWord :=
  fun _ _ h => decode_eq_ok_iff.mp h

/-! ### The rows of match and mask (R66, R67) -/

/-- The forms the twelve rows of the opcode map take: which operands a row has, and its command. -/
inductive RowForm where
  | reg (mk : Reg → Instr)
  | load
  | combine
  | plain (i : Instr)
  | count (mk : Nat → Instr)
  | input

/-- The row of each opcode; the other opcodes are reserved (R66). -/
def rowForm (op : BitVec 4) : Option RowForm :=
  match op.toNat with
  | 1 => some (.reg .lstep)
  | 2 => some (.reg .lreset)
  | 3 => some .load
  | 4 => some (.reg .lread)
  | 5 => some .combine
  | 6 => some (.plain .gstep)
  | 7 => some (.count .generate)
  | 8 => some (.plain .greset)
  | 9 => some (.plain .inclr)
  | 10 => some .input
  | 11 => some (.plain .apply)
  | 12 => some (.count .crypt)
  | _ => none

namespace RowForm

/-- How the decoder reads a word of the row. -/
def read : RowForm → Fields → Except Reject Instr
  | .reg mk, f => decodeReg f mk
  | .load, f => decodeLoad f
  | .combine, f => decodeCombine f
  | .plain i, f => decodePlain f i
  | .count mk, f => decodeCount f mk
  | .input, f => decodeInput f

/-- What R67 asks of the fields below the opcode. -/
def Admits : RowForm → Fields → Prop
  | .reg _, f => f.sel ≠ 3 ∧ f.len = 0 ∧ f.zero = 0 ∧ f.data = 0
  | .load, f => f.sel ≠ 3 ∧ f.zero = 0 ∧ f.dataFits = true
  | .combine, f => f.sel = 0 ∧ f.len = 0 ∧ f.zero = 0 ∧ f.data >>> 3 = 0
  | .plain _, f => f.sel = 0 ∧ f.len = 0 ∧ f.zero = 0 ∧ f.data = 0
  | .count _, f => f.sel = 0 ∧ f.len = 0 ∧ f.zero = 0
  | .input, f => f.sel = 0 ∧ f.zero = 0 ∧ assembles f.len = true ∧ f.dataFits = true

/-- The bits that a row of this form fixes. -/
def mask : RowForm → Fields
  | .reg _ => ⟨.allOnes 4, 0#2, .allOnes 5, .allOnes 5, .allOnes 16⟩
  | .load => ⟨.allOnes 4, 0#2, 0#5, .allOnes 5, 0#16⟩
  | .combine => ⟨.allOnes 4, .allOnes 2, .allOnes 5, .allOnes 5, BitVec.allOnes 16 <<< 3⟩
  | .plain _ => ⟨.allOnes 4, .allOnes 2, .allOnes 5, .allOnes 5, .allOnes 16⟩
  | .count _ => ⟨.allOnes 4, .allOnes 2, .allOnes 5, .allOnes 5, 0#16⟩
  | .input => ⟨.allOnes 4, .allOnes 2, 0#5, .allOnes 5, 0#16⟩

def hasSel : RowForm → Bool
  | .reg _ | .load => true
  | _ => false

def isInput : RowForm → Bool
  | .input => true
  | _ => false

def hasVector : RowForm → Bool
  | .load | .input => true
  | _ => false

/-- The row of this form with an opcode: beside the opcode, every bit it fixes is 0. -/
def row (form : RowForm) (op : BitVec 4) : OpcodeRow :=
  ⟨op, joinWord ⟨op, 0, 0, 0, 0⟩, joinWord form.mask, form.hasSel, form.isInput, form.hasVector⟩

end RowForm

/-- The decoder is the table of rows: one case for each opcode. -/
theorem decode_joinWord_eq_read (f : Fields) :
    decode (joinWord f) = (rowForm f.op).elim (.error .reservedOpcode) (·.read f) := by
  rw [decode_joinWord]
  obtain ⟨⟨⟨n, hn⟩⟩, sel, len, zero, data⟩ := f
  interval_cases n <;> rfl

theorem decode_joinWord_eq_ok {f : Fields} {i : Instr} :
    decode (joinWord f) = .ok i ↔ ∃ form, rowForm f.op = some form ∧ form.read f = .ok i := by
  rw [decode_joinWord_eq_read]
  cases rowForm f.op <;> simp

/-- The constants that R66 writes for the rows are those of their forms. -/
theorem opcodeRows_eq :
    opcodeRows = (List.ofFn BitVec.ofFin).filterMap fun op : BitVec 4 => (rowForm op).map (·.row op) := by
  decide

theorem mem_opcodeRows {row : OpcodeRow} :
    row ∈ opcodeRows ↔ ∃ op form, rowForm op = some form ∧ form.row op = row := by
  simp only [opcodeRows_eq, List.mem_filterMap, Option.map_eq_some_iff, List.mem_ofFn]
  exact ⟨fun ⟨op, _, h⟩ => ⟨op, h⟩, fun ⟨op, h⟩ => ⟨op, ⟨op.toFin, rfl⟩, h⟩⟩

theorem extractLsb'_sel (f : Fields) : (joinWord f).extractLsb' 26 2 = f.sel :=
  congrArg Fields.sel (splitWord_joinWord f)

theorem extractLsb'_len (f : Fields) : (joinWord f).extractLsb' 21 5 = f.len :=
  congrArg Fields.len (splitWord_joinWord f)

theorem extractLsb'_data (f : Fields) : (joinWord f).extractLsb' 0 16 = f.data :=
  congrArg Fields.data (splitWord_joinWord f)

/-- The mask of COMBINE leaves `data[15:3]`. -/
theorem and_allOnes_shiftLeft_eq_zero {data : BitVec 16} :
    data &&& (BitVec.allOnes 16 <<< 3) = 0#16 ↔ data >>> 3 = 0#16 := by
  rw [← BitVec.shiftLeft_ushiftRight]
  constructor <;> intro h
  · bv_omega
  · rw [h]; rfl

/-- A word is a candidate for a row exactly if it has its opcode and 0 in the bits below that the row fixes. -/
theorem RowForm.candidate_iff (form : RowForm) (op : BitVec 4) (f : Fields) :
    (form.row op).candidate (joinWord f) = true ↔
      f.op = op ∧ f.sel &&& form.mask.sel = 0 ∧ f.len &&& form.mask.len = 0 ∧ f.zero = 0 ∧
        f.data &&& form.mask.data = 0 := by
  have hop : form.mask.op = .allOnes 4 := by cases form <;> rfl
  have hzero : form.mask.zero = .allOnes 5 := by cases form <;> rfl
  simp only [OpcodeRow.candidate, RowForm.row, joinWord_and, beq_iff_eq, joinWord_inj, Fields.mk.injEq, hop, hzero,
    BitVec.and_allOnes]

theorem accepts_joinWord_iff (row : OpcodeRow) (f : Fields) :
    row.accepts (joinWord f) = true ↔ row.candidate (joinWord f) = true ∧ (row.hasSel = true → f.sel ≠ 3) ∧
      (row.isInput = true → assembles f.len = true) ∧ (row.hasVector = true → f.dataFits = true) := by
  have hlen : (f.len != 0 && decide (f.len.toNat ≤ 16)) = assembles f.len := by
    have hzero : (f.len != 0) = (f.len.toNat != 0) := Bool.eq_iff_iff.mpr (by simp [← BitVec.toNat_inj])
    rw [hzero, assembles]
  have hfits : (f.data >>> min f.len.toNat 16 == 0) = f.dataFits := rfl
  simp only [OpcodeRow.accepts, extractLsb'_sel, extractLsb'_len, extractLsb'_data, hlen, hfits, Bool.and_eq_true,
    Bool.or_eq_true, Bool.not_eq_true', Bool.eq_false_iff, bne_iff_ne, and_assoc, imp_iff_not_or]

/-- A row accepts a word exactly if the word has its opcode and the fields below it are as R67 asks. -/
theorem RowForm.accepts_iff (form : RowForm) (op : BitVec 4) (f : Fields) :
    (form.row op).accepts (joinWord f) = true ↔ f.op = op ∧ form.Admits f := by
  rw [accepts_joinWord_iff, form.candidate_iff]
  cases form <;>
    simp [RowForm.row, mask, Admits, hasSel, isInput, hasVector, and_allOnes_shiftLeft_eq_zero, -BitVec.reduceAllOnes,
      and_assoc, and_left_comm, and_comm]

theorem exists_regNumber_eq {sel : BitVec 2} : (∃ r, sel = regNumber r) ↔ sel ≠ 3 := by
  constructor
  · rintro ⟨r, rfl⟩
    cases r <;> decide
  · intro hne
    have hcases : ∀ sel : BitVec 2, sel ≠ 3 → sel = regNumber .g0 ∨ sel = regNumber .g1 ∨ sel = regNumber .ct := by
      decide
    obtain h | h | h := hcases sel hne <;> exact ⟨_, h⟩

theorem decodeReg_of_fields {f : Fields} {r : Reg} (mk : Reg → Instr) (hsel : f.sel = regNumber r) (hlen : f.len = 0)
    (hzero : f.zero = 0) (hdata : f.data = 0) : decodeReg f mk = .ok (mk r) := by
  simp [decodeReg, Fields.lenZero, hsel, hlen, hzero, hdata]

theorem decodePlain_of_fields {f : Fields} (i : Instr) (hsel : f.sel = 0) (hlen : f.len = 0) (hzero : f.zero = 0)
    (hdata : f.data = 0) : decodePlain f i = .ok i := by
  simp [decodePlain, Fields.selZero, Fields.lenZero, hsel, hlen, hzero, hdata]

theorem decodeCount_of_fields {f : Fields} (mk : Nat → Instr) (hsel : f.sel = 0) (hlen : f.len = 0)
    (hzero : f.zero = 0) : decodeCount f mk = .ok (mk f.data.toNat) := by
  simp [decodeCount, Fields.selZero, Fields.lenZero, hsel, hlen, hzero]

theorem decodeCombine_of_fields {f : Fields} (hsel : f.sel = 0) (hlen : f.len = 0) (hzero : f.zero = 0)
    (habove : f.data >>> 3 = 0) :
    decodeCombine f = .ok (.combine (f.data.getLsbD 2) (f.data.getLsbD 1) (f.data.getLsbD 0)) := by
  simp [decodeCombine, Fields.selZero, Fields.lenZero, hsel, hlen, hzero, habove]

theorem decodeLoad_of_fields {f : Fields} {r : Reg} (hsel : f.sel = regNumber r) (hzero : f.zero = 0)
    (hfits : f.dataFits = true) : decodeLoad f = .ok (.lload r f.loadOperand) := by
  simp [decodeLoad, hsel, hzero, hfits]

theorem decodeInput_of_fields {f : Fields} (hsel : f.sel = 0) (hzero : f.zero = 0) (hlen : assembles f.len = true)
    (hfits : f.dataFits = true) : decodeInput f = .ok (.inld f.vector) := by
  simp [decodeInput, Fields.selZero, hsel, hzero, hlen, hfits]

theorem RowForm.admits_of_read {form : RowForm} {f : Fields} {i : Instr} (h : form.read f = .ok i) :
    form.Admits f := by
  cases form with
  | reg mk =>
    obtain ⟨r, -, hsel, hrest⟩ := decodeReg_ok h
    exact ⟨exists_regNumber_eq.mp ⟨r, hsel⟩, hrest⟩
  | load =>
    obtain ⟨r, -, hsel, hrest⟩ := decodeLoad_ok h
    exact ⟨exists_regNumber_eq.mp ⟨r, hsel⟩, hrest⟩
  | combine => exact (decodeCombine_ok h).right
  | plain j => exact (decodePlain_ok h).right
  | count mk => exact (decodeCount_ok h).right
  | input =>
    obtain ⟨-, hsel, hzero, hpos, hle, hfits⟩ := decodeInput_ok h
    exact ⟨hsel, hzero, (assembles_iff f.len).mpr ⟨hpos, hle⟩, hfits⟩

theorem RowForm.exists_read_of_admits {form : RowForm} {f : Fields} (h : form.Admits f) :
    ∃ i, form.read f = .ok i := by
  cases form with
  | reg mk =>
    obtain ⟨hsel, hlen, hzero, hdata⟩ := h
    obtain ⟨r, hr⟩ := exists_regNumber_eq.mpr hsel
    exact ⟨mk r, decodeReg_of_fields mk hr hlen hzero hdata⟩
  | load =>
    obtain ⟨hsel, hzero, hfits⟩ := h
    obtain ⟨r, hr⟩ := exists_regNumber_eq.mpr hsel
    exact ⟨_, decodeLoad_of_fields hr hzero hfits⟩
  | combine =>
    obtain ⟨hsel, hlen, hzero, habove⟩ := h
    exact ⟨_, decodeCombine_of_fields hsel hlen hzero habove⟩
  | plain i =>
    obtain ⟨hsel, hlen, hzero, hdata⟩ := h
    exact ⟨i, decodePlain_of_fields i hsel hlen hzero hdata⟩
  | count mk =>
    obtain ⟨hsel, hlen, hzero⟩ := h
    exact ⟨_, decodeCount_of_fields mk hsel hlen hzero⟩
  | input =>
    obtain ⟨hsel, hzero, hlen, hfits⟩ := h
    exact ⟨_, decodeInput_of_fields hsel hzero hlen hfits⟩

theorem extractLsb'_sel_encode (i : Instr) : (encode i).extractLsb' 26 2 = i.selField :=
  extractLsb'_sel (wordFields i)

theorem extractLsb'_len_encode (i : Instr) : (encode i).extractLsb' 21 5 = i.lenField :=
  extractLsb'_len (wordFields i)

theorem extractLsb'_data_encode (i : Instr) : (encode i).extractLsb' 0 16 = i.dataField :=
  extractLsb'_data (wordFields i)

theorem getLsbD_encode (i : Instr) {k : Nat} (h : k < 16) : (encode i).getLsbD k = i.dataField.getLsbD k :=
  (getLsbD_joinWord (wordFields i) k).trans (if_pos h)

/-- The operands of a well-formed command are those its own word carries (R62 to R65). -/
theorem assembledFrom_encode {i : Instr} (h : i.wf = true) : assembledFrom (encode i) i := by
  cases i with
  | lstep r => exact (extractLsb'_sel_encode (.lstep r)).symm
  | lreset r => exact (extractLsb'_sel_encode (.lreset r)).symm
  | lread r => exact (extractLsb'_sel_encode (.lread r)).symm
  | lload r v =>
    refine ⟨(extractLsb'_sel_encode (.lload r v)).symm, ?_⟩
    cases v with
    | vector v =>
      obtain ⟨hpos, hle⟩ := (vectorOk_iff v).mp h
      have hlen := toNat_length_of_vectorOk h
      rw [extractLsb'_len_encode, extractLsb'_data_encode]
      exact ⟨hlen.ge.trans' hpos, hlen.le.trans hle, (unpk_fields_of_vectorOk h).symm⟩
    | unassembled len data =>
      obtain ⟨hlen, -⟩ := Bool.and_eq_true_iff.mp h
      rw [Bool.not_eq_true', ← Bool.not_eq_true, assembles_iff] at hlen
      rw [extractLsb'_len_encode]
      exact (by omega : len.toNat = 0 ∨ 16 < len.toNat)
  | combine b0 b1 c =>
    obtain ⟨h0, h1, hctl, -⟩ := data_pk_three b0 b1 c
    have hbit {k : Nat} (hk : k < 16) := getLsbD_encode (.combine b0 b1 c) hk
    exact ⟨h0.symm.trans (hbit (by decide)).symm, h1.symm.trans (hbit (by decide)).symm,
      hctl.symm.trans (hbit (by decide)).symm⟩
  | generate n =>
    have hn : (BitVec.ofNat 16 n).toNat = n := toNat_ofNat_of_lt (of_decide_eq_true h)
    exact hn.symm.trans (congrArg BitVec.toNat (extractLsb'_data_encode (.generate n)).symm)
  | crypt n =>
    have hn : (BitVec.ofNat 16 n).toNat = n := toNat_ofNat_of_lt (of_decide_eq_true h)
    exact hn.symm.trans (congrArg BitVec.toNat (extractLsb'_data_encode (.crypt n)).symm)
  | inld v =>
    have hv := unpk_fields_of_vectorOk h
    rw [assembledFrom, extractLsb'_len_encode, extractLsb'_data_encode]
    exact hv.symm
  | gstep | greset | inclr | apply => trivial

/-- A word that decodes is accepted by the row with the opcode of its command. -/
theorem exists_row_of_decode {w : CommandWord} {i : Instr} (h : decode w = .ok i) :
    ∃ row ∈ opcodeRows, row.opcode = i.opcode ∧ row.accepts w = true := by
  obtain ⟨-, rfl⟩ := decode_eq_ok_iff.mp h
  obtain ⟨form, hform, hread⟩ := decode_joinWord_eq_ok.mp h
  exact ⟨form.row i.opcode, mem_opcodeRows.mpr ⟨_, form, hform, rfl⟩, rfl,
    (form.accepts_iff _ _).mpr ⟨rfl, form.admits_of_read hread⟩⟩

/-- A word that a row accepts decodes to a command of the row. -/
theorem decode_of_row_accepts {row : OpcodeRow} (hrow : row ∈ opcodeRows) {w : CommandWord}
    (h : row.accepts w = true) : ∃ i, decode w = .ok i ∧ i.opcode = row.opcode := by
  obtain ⟨op, form, hform, rfl⟩ := mem_opcodeRows.mp hrow
  rw [← joinWord_splitWord w] at h
  obtain ⟨rfl, hadmits⟩ := (form.accepts_iff _ _).mp h
  obtain ⟨i, hread⟩ := RowForm.exists_read_of_admits hadmits
  have hdecode := decode_joinWord_eq_ok.mpr ⟨form, hform, hread⟩
  obtain ⟨-, hfields⟩ := writesBack_of_decode hdecode
  exact ⟨i, joinWord_splitWord w ▸ hdecode, congrArg Fields.op hfields⟩

/-- The row a word is a candidate for is the row of its opcode. -/
theorem row_eq_of_candidate {row row' : OpcodeRow} (hrow : row ∈ opcodeRows) (hrow' : row' ∈ opcodeRows)
    {w : CommandWord} (h : row.candidate w = true) (h' : row'.candidate w = true) : row = row' := by
  obtain ⟨op, form, hform, rfl⟩ := mem_opcodeRows.mp hrow
  obtain ⟨op', form', hform', rfl⟩ := mem_opcodeRows.mp hrow'
  rw [← joinWord_splitWord w, RowForm.candidate_iff] at h h'
  obtain rfl : op = op' := h.left.symm.trans h'.left
  obtain rfl : form = form' := Option.some.inj (hform.symm.trans hform')
  rfl

/-- Settles O4: a row accepts a word exactly if the decoder reads a command of the row from it. -/
theorem decodingFollowsTheRows : Obligations.DecodingFollowsTheRows := by
  intro w
  refine ⟨fun row hrow row' hrow' => row_eq_of_candidate hrow hrow', fun i h => ⟨?operands, exists_row_of_decode h⟩,
    fun row hrow => decode_of_row_accepts hrow, fun hnone s c hc => ?illegal⟩
  case operands =>
    obtain ⟨hwf, rfl⟩ := decode_eq_ok_iff.mp h
    exact assembledFrom_encode hwf
  case illegal =>
    cases hdecode : decode w with
    | error e => exact runCommand_illegal hc hdecode
    | ok i =>
      obtain ⟨row, hrow, -, haccepts⟩ := exists_row_of_decode hdecode
      exact absurd haccepts (Bool.eq_false_iff.mp (hnone row hrow))

/-! ### The vector operand (R63) -/

theorem decode_load_ok (r : Reg) {len : BitVec 5} {data : BitVec 16} (h : dataBelow len data = true) :
    decode (joinWord ⟨3, regNumber r, len, 0, data⟩) =
      .ok (.lload r (Fields.loadOperand ⟨3, regNumber r, len, 0, data⟩)) :=
  (decode_joinWord _).trans (decodeLoad_of_fields rfl rfl h)

theorem decode_input_ok {len : BitVec 5} {data : BitVec 16} (hlen : assembles len = true)
    (h : dataBelow len data = true) :
    decode (joinWord ⟨10, 0, len, 0, data⟩) = .ok (.inld (unpk len.toNat data.toNat)) :=
  (decode_joinWord _).trans (decodeInput_of_fields rfl rfl hlen h)

/-- A word that its row does not admit is illegal. -/
theorem decode_error_of_not_admits {f : Fields} {form : RowForm} (hform : rowForm f.op = some form)
    (h : ¬ form.Admits f) : ∃ e, decode (joinWord f) = .error e := by
  cases hdecode : decode (joinWord f) with
  | error e => exact ⟨e, rfl⟩
  | ok i =>
    obtain ⟨form', hform', hread⟩ := decode_joinWord_eq_ok.mp hdecode
    obtain rfl : form = form' := Option.some.inj (hform.symm.trans hform')
    exact absurd (RowForm.admits_of_read hread) h

theorem dataBelow_iff (len : BitVec 5) (data : BitVec 16) :
    dataBelow len data = true ↔ data >>> min len.toNat 16 = 0 :=
  beq_iff_eq

/-- Element `i` of the vector that `data` carries is its bit `len-1-i` (R63). -/
theorem getElem?_unpk_toNat {n : Nat} (data : BitVec 16) {i : Nat} (h : i < n) :
    (unpk n data.toNat)[i]? = some (data.getLsbD (n - 1 - i)) :=
  getElem?_unpk n data.toNat i h

theorem exec_lload_unassembled {s : State} {c : CoreState} (hc : s.core = some c) (r : Reg) (len : BitVec 5)
    (data : BitVec 16) : exec (.lload r (.unassembled len data)) s = .next (aborted s c .configError) :=
  exec_faults (i := .lload r (.unassembled len data)) hc nofun

/-- Settles O5: the rows of LLOAD and INLD admit just these fields. -/
theorem vectorOperandIsReadFromData : Obligations.VectorOperandIsReadFromData := by
  intro r len data
  simp only [ne_eq, ← dataBelow_iff]
  refine ⟨fun hfits hpos hle => ?vector, fun habove => ⟨?loadAbove, ?inputAbove⟩,
    fun hlen => ⟨?inputLength, fun hfits => ?noVector⟩⟩
  case vector =>
    have hlen : assembles len = true := (assembles_iff len).mpr ⟨hpos, hle⟩
    have hoperand : Fields.loadOperand ⟨3, regNumber r, len, 0, data⟩ = .vector (unpk len.toNat data.toNat) :=
      if_pos hlen
    exact ⟨unpk len.toNat data.toNat, hoperand ▸ decode_load_ok r hfits, decode_input_ok hlen hfits,
      unpk_length _ _, fun i hi => getElem?_unpk_toNat data hi⟩
  case loadAbove => exact decode_error_of_not_admits rfl fun ⟨_, _, hfits⟩ => habove hfits
  case inputAbove => exact decode_error_of_not_admits rfl fun ⟨_, _, _, hfits⟩ => habove hfits
  case inputLength =>
    refine decode_error_of_not_admits rfl fun ⟨_, _, hassembles, _⟩ => ?_
    obtain ⟨hpos, hle⟩ := (assembles_iff len).mp hassembles
    omega
  case noVector =>
    have hnone : ¬ assembles len = true := by rw [assembles_iff]; omega
    have hoperand : Fields.loadOperand ⟨3, regNumber r, len, 0, data⟩ = .unassembled len data := if_neg hnone
    have hdecode := decode_load_ok r hfits
    rw [hoperand] at hdecode
    exact ⟨⟨len, data, hdecode⟩, fun s c hc =>
      (runCommand_legal hc hdecode).trans (exec_lload_unassembled hc r len data)⟩

/-! ### INSET (R70) -/

theorem flatten_chunks16 {fuel : Nat} {v : Bits} (h : v.length ≤ fuel) : (chunks16 fuel v).flatten = v := by
  induction fuel generalizing v with
  | zero => simpa [chunks16, eq_comm] using h
  | succ fuel ih =>
    rw [chunks16]
    split
    next hv => simp [hv]
    next hv =>
      have hpos := List.length_pos_iff.mpr hv
      rw [List.flatten_cons, ih (by rw [List.length_drop]; omega), List.take_append_drop]

/-- Each chunk is a vector that a word can carry. -/
theorem vectorOk_of_mem_chunks16 {fuel : Nat} {v u : Bits} (h : u ∈ chunks16 fuel v) : vectorOk u = true := by
  induction fuel generalizing v with
  | zero => cases h
  | succ fuel ih =>
    rw [chunks16] at h
    split at h
    next => cases h
    next hv =>
      obtain rfl | hrest := List.mem_cons.mp h
      · have hpos := List.length_pos_iff.mpr hv
        rw [vectorOk_iff, List.length_take]
        omega
      · exact ih hrest

theorem insetCommands_wf {b : Bits} {i : Instr} (h : i ∈ insetCommands b) : i.wf = true := by
  obtain rfl | hinld := List.mem_cons.mp h
  · rfl
  · obtain ⟨u, hu, rfl⟩ := List.mem_map.mp hinld
    exact vectorOk_of_mem_chunks16 hu

/-- A list of INLD appends its vectors to `IN`, one after the other (43_cipher.md R132). -/
theorem execAll_inld {vs : List Bits} {s : State} {c : CoreState} (hc : s.core = some c)
    (hfit : fitsCapacity s.params (c.IN.length + vs.flatten.length) = true) :
    ∃ t, execAll (vs.map .inld) s = .next t ∧ t.core = some { c with IN := c.IN ++ vs.flatten } := by
  induction vs generalizing s c with
  | nil => exact ⟨s, rfl, by simp [hc]⟩
  | cons v vs ih =>
    rw [List.flatten_cons, List.length_append, ← Nat.add_assoc] at hfit
    have hfirst := exec_completes (i := .inld v) hc rfl (fitsCapacity_le hfit (Nat.le_add_right _ _))
    obtain ⟨t, hrest, ht⟩ := ih (completed_core s (effect (.inld v) c) _) (by simpa [effect] using hfit)
    exact ⟨t, (execAll_cons hfirst).trans hrest, by rw [ht]; simp [effect]⟩

/-- Settles O37: INCLR, and then an INLD for each of the chunks, which flatten to the bit string. -/
theorem insetSuppliesTheWholeInput : Obligations.InsetSuppliesTheWholeInput := by
  intro s c b hc _ hfit
  refine ⟨fun i hi => insetCommands_wf hi, ?_⟩
  have hflat := flatten_chunks16 (Nat.le_refl b.length)
  have hclear := exec_completes (i := .inclr) hc rfl (fitsCapacity_zero s.params)
  obtain ⟨t, hload, ht⟩ := execAll_inld (vs := chunks16 b.length b) (completed_core s (effect .inclr c) _)
    (by simpa [effect, hflat] using hfit)
  exact ⟨t, (execAll_cons hclear).trans hload, by rw [ht, hflat]; rfl⟩

/-! ### The response port (R71) -/

/-- The bits of a packed vector: element 0 is the most significant, with nothing above it (00_scope.md R10). -/
theorem testBit_pk (v : Bits) (i : Nat) :
    (pk v).testBit i = if i < v.length then v[v.length - 1 - i]?.getD false else false := by
  split
  next hi =>
    have hbit := getElem?_unpk v.length (pk v) (v.length - 1 - i) (by omega)
    rw [unpk_pk, show v.length - 1 - (v.length - 1 - i) = i by omega] at hbit
    rw [hbit, Option.getD_some]
  next hi =>
    exact Nat.testBit_lt_two_pow ((pk_lt v).trans_le (Nat.pow_le_pow_right (by decide) (Nat.not_lt.mp hi)))

theorem getLsbD_packVector (v : Bits) {i : Nat} (h : i < 16) : (packVector v).getLsbD i = (pk v).testBit i := by
  rw [packVector, BitVec.getLsbD_ofNat, decide_eq_true h, Bool.true_and]

theorem packWarn_bits (w : PerReg Bit) :
    (packWarn w).getLsbD 2 = w.g0 ∧ (packWarn w).getLsbD 1 = w.g1 ∧ (packWarn w).getLsbD 0 = w.ct := by
  obtain ⟨b0, b1, c⟩ := w
  decide +revert

theorem encodeResponse_of_fault {r : Response} (h : r.err ≠ .ok) : encodeResponse r = bareResponse r := if_neg h

/-- Settles O55: the clauses on the fields are `encodeResponse` read case by case. -/
theorem responsePortFields : Obligations.ResponsePortFields :=
  ⟨rfl, packWarn_bits, fun v _ _ hi => (getLsbD_packVector v hi).trans (testBit_pk v _),
    fun _ => ⟨fun _ => rfl, fun _ => rfl, fun _ => rfl, rfl, fun _ _ he => encodeResponse_of_fault he⟩⟩

/-! ### Written words, and the widths of constructed cores (R72) -/

/-- Settles O1: the decoder, run on each of the words. -/
theorem decodesWrittenWords : Obligations.DecodesWrittenWords := by
  unfold Obligations.DecodesWrittenWords
  decide

/-- A construction leaves a built core only with a well-formed configuration of the encoded interface. -/
theorem built_of_constructEvent {raw : RawConfig} {s t : State} {d : CoreState} (h : constructEvent raw s = .next t)
    (ht : t.core = some d) : cfgOk raw = true ∧ raw.width ≤ 16 ∧ d = freshCore (latch raw) := by
  rw [constructEvent_eq] at h
  split at h
  next hcfg =>
    split at h
    next hwidth =>
      cases h
      exact ⟨hcfg, hwidth, (Option.some.inj ht).symm⟩
    next => cases h
  next =>
    cases h
    cases ht

/-- Settles O58: `cfg_ok` gives the lower bound, the premise of construction the upper. -/
theorem constructedWidthsAreEncodable : Obligations.ConstructedWidthsAreEncodable := by
  intro s raw
  refine ⟨fun t d h ht => ?encodable, fun hcfg hwide => ?refused⟩
  case encodable =>
    obtain ⟨hcfg, hwidth, rfl⟩ := built_of_constructEvent h ht
    exact ⟨((cfgOk_iff raw).mp hcfg).left, hwidth⟩
  case refused => rw [constructEvent_eq, if_pos hcfg, if_neg (Nat.not_le.mpr hwide)]

end Sys2Proof.Machine

/-!
PROOFS. The statements of spec/40_lfsr.md: the feedback, the next state and the output bit (R80 to R82), the commands
of one register (R83 to R86), and the sequence of states and outputs of a register stepped repeatedly (R87 to R90).
First the rules of `fb`, `nxt` and `stepsFrom`, in this order; R89 and R90 turn on when `nxt` can be undone, and on a
count of the states that are not all-zero.
-/

namespace Sys2Proof.Machine

/-! ### The feedback (R80) -/

@[simp] theorem fb_cons_cons (t b : Bit) (T s : Bits) : fb (t :: T) (b :: s) = ((t && b) ^^ fb T s) := rfl

@[simp] theorem fb_nil_left (s : Bits) : fb [] s = false := rfl

@[simp] theorem fb_nil_right (T : Bits) : fb T [] = false := by
  cases T <;> rfl

/-- The feedback of the empty tap set is 0. -/
@[simp] theorem fb_replicate_false_left (n : Nat) (s : Bits) : fb (List.replicate n false) s = false := by
  induction n generalizing s with
  | zero => rfl
  | succ n ih =>
    cases s with
    | nil => rfl
    | cons b s => simp [List.replicate_succ, ih]

/-- The feedback of the all-zero state is 0, whatever is tapped. -/
@[simp] theorem fb_replicate_false_right (T : Bits) (n : Nat) : fb T (List.replicate n false) = false := by
  induction n generalizing T with
  | zero => exact fb_nil_right T
  | succ n ih =>
    cases T with
    | nil => rfl
    | cons t T => simp [List.replicate_succ, ih]

@[simp] theorem tappedOnes_nil_left (s : Bits) : tappedOnes [] s = 0 := by
  simp [tappedOnes]

@[simp] theorem tappedOnes_nil_right (T : Bits) : tappedOnes T [] = 0 := rfl

theorem tappedOnes_cons_cons (t b : Bit) (T s : Bits) :
    tappedOnes (t :: T) (b :: s) = tappedOnes T s + (t && b).toNat := by
  rw [tappedOnes, List.length_cons, List.range_succ_eq_map, List.countP_cons, List.countP_map]
  cases t <;> cases b <;> rfl

/-- The feedback is the parity of the tapped elements that are 1, also where the lengths differ. -/
theorem fb_eq_true_iff (T s : Bits) : fb T s = true ↔ tappedOnes T s % 2 = 1 := by
  induction s generalizing T with
  | nil => simp
  | cons b s ih =>
    cases T with
    | nil => simp
    | cons t T =>
      rw [fb_cons_cons, tappedOnes_cons_cons]
      cases htap : t && b with
      | false => simpa using ih T
      | true =>
        have hflip : fb T s = false ↔ ¬ tappedOnes T s % 2 = 1 := by rw [← ih T, Bool.not_eq_true]
        simp only [Bool.true_bne, Bool.not_eq_true', hflip, Bool.toNat_true]
        omega

/-- The first element is the most significant bit of a packed vector (00_scope.md R10). -/
theorem testBit_pk_cons_length (b : Bit) (v : Bits) : (pk (b :: v)).testBit v.length = b := by
  simp [testBit_pk]

/-- The bits below it are those of the packed rest. -/
theorem testBit_pk_cons_of_lt (b : Bit) {v : Bits} {i : Nat} (h : i < v.length) :
    (pk (b :: v)).testBit i = (pk v).testBit i := by
  rw [pk, Nat.mul_comm, Nat.testBit_two_pow_mul_add _ (pk_lt v), if_pos h]

/-- The ones of `pk(s) AND tm(T)` are the tapped elements that are 1. -/
theorem countP_testBit_pk_and {T s : Bits} (h : T.length = s.length) :
    ((List.range s.length).countP fun i => (pk s &&& pk T).testBit i) = tappedOnes T s := by
  induction s generalizing T with
  | nil => simp
  | cons b s ih =>
    cases T with
    | nil => cases h
    | cons t T =>
      have hlen : T.length = s.length := Nat.succ.inj h
      have hbelow : (List.range s.length).countP (fun i => (pk (b :: s) &&& pk (t :: T)).testBit i) =
          (List.range s.length).countP fun i => (pk s &&& pk T).testBit i := by
        refine List.countP_congr fun i hi => ?_
        have hi : i < s.length := List.mem_range.mp hi
        rw [Nat.testBit_and, testBit_pk_cons_of_lt b hi, testBit_pk_cons_of_lt t (hlen ▸ hi), ← Nat.testBit_and]
      have htop : (pk (b :: s) &&& pk (t :: T)).testBit s.length = (t && b) := by
        rw [Nat.testBit_and, testBit_pk_cons_length, ← hlen, testBit_pk_cons_length, Bool.and_comm]
      rw [List.length_cons, List.range_succ, List.countP_append, hbelow, ih hlen, tappedOnes_cons_cons,
        List.countP_singleton, htop]
      cases t && b <;> rfl

/-- Settles O6. -/
theorem feedbackIsParityOfTaps : Obligations.FeedbackIsParityOfTaps := by
  intro T s h
  refine ⟨fb_eq_true_iff T s, fb_replicate_false_left _ s, fb_replicate_false_right T _, ?packed⟩
  case packed => rw [countP_testBit_pk_and h, fb_eq_true_iff]

/-! ### The next state (R81) and the output bit (R82) -/

@[simp] theorem nxt_cons (T : Bits) (b : Bit) (v : Bits) : nxt T (b :: v) = v ++ [fb T (b :: v)] := rfl

theorem nxt_getElem?_of_lt (T : Bits) {s : Bits} {j : Nat} (h : j + 1 < s.length) : (nxt T s)[j]? = s[j + 1]? := by
  cases s with
  | nil => cases h
  | cons b v => simp [List.getElem?_append_left (Nat.lt_of_succ_lt_succ h)]

theorem nxt_getElem?_last (T : Bits) {s : Bits} (h : 1 ≤ s.length) : (nxt T s)[s.length - 1]? = some (fb T s) := by
  cases s with
  | nil => cases h
  | cons b v => simp

theorem nxt_of_length_one (T : Bits) {s : Bits} (h : s.length = 1) : nxt T s = [fb T s] := by
  obtain ⟨b, rfl⟩ := List.length_eq_one_iff.mp h
  rfl

/-- Packed, the word shifts one place up, loses its top bit, and takes the feedback in at bit 0. -/
theorem pk_nxt (T : Bits) {s : Bits} (h : 1 ≤ s.length) :
    pk (nxt T s) = pk s * 2 % 2 ^ s.length + (fb T s).toNat := by
  cases s with
  | nil => cases h
  | cons b v =>
    have hshift : pk (b :: v) * 2 = 2 ^ (v.length + 1) * b.toNat + pk v * 2 := by rw [pk]; ring
    have hfits : pk v * 2 < 2 ^ (v.length + 1) := by have := pk_lt v; omega
    rw [List.length_cons, hshift, Nat.mul_add_mod, Nat.mod_eq_of_lt hfits, nxt_cons, pk_append]
    simp [pk]

/-- Settles O7. -/
theorem nextStateShiftsAndAppends : Obligations.NextStateShiftsAndAppends := fun T _ hpos _ =>
  ⟨nxt_length hpos, fun _ hj => nxt_getElem?_of_lt T hj, nxt_getElem?_last T hpos, nxt_of_length_one T, pk_nxt T hpos⟩

theorem getElem?_zero_eq_outbit {s : Bits} (h : 1 ≤ s.length) : s[0]? = some (outbit s) := by
  cases s with
  | nil => cases h
  | cons b v => rfl

/-- Settles O8. -/
theorem outputBitIsElementZero : Obligations.OutputBitIsElementZero := by
  intro s hpos
  refine ⟨getElem?_zero_eq_outbit hpos, ?packed⟩
  cases s with
  | nil => cases hpos
  | cons b v => exact (testBit_pk_cons_length b v).symm

/-! ### The commands of one register (R83 to R86) -/

theorem exec_lstep {s : State} {c : CoreState} (hc : s.core = some c) (r : Reg) :
    exec (.lstep r) s = .next (completed s (setReg c r (nxt (c.cfg.T.get r) (c.S.get r)))
      (some (.stepped (stepRecord (c.cfg.T.get r) (c.S.get r))))) :=
  exec_completes (i := .lstep r) hc rfl (fitsCapacity_zero _)

theorem exec_lreset {s : State} {c : CoreState} (hc : s.core = some c) (r : Reg) :
    exec (.lreset r) s = .next (completed s (setReg c r (c.cfg.I.get r)) none) :=
  exec_completes (i := .lreset r) hc rfl (fitsCapacity_zero _)

theorem exec_lload {s : State} {c : CoreState} (hc : s.core = some c) (r : Reg) {v : Bits} (h : v.length = c.cfg.W) :
    exec (.lload r (.vector v)) s = .next (completed s (setReg c r v) none) :=
  exec_completes (i := .lload r (.vector v)) hc (if_pos h) (fitsCapacity_zero _)

/-- Settles O9: `new` is `nxt` of the old state, read element by element. -/
theorem lstepStepsOneRegister : Obligations.LstepStepsOneRegister := by
  intro s c r hc hinv
  have hlen : (c.S.get r).length = c.cfg.W := hinv.reg_length r
  have hpos : 1 ≤ (c.S.get r).length := hlen ▸ hinv.width_pos
  refine ⟨decode_encode (i := .lstep r) rfl, outbit (c.S.get r), nxt (c.cfg.T.get r) (c.S.get r), exec_lstep hc r,
    getElem?_zero_eq_outbit hpos, hlen ▸ nxt_length hpos, fun j hj => nxt_getElem?_of_lt _ (hlen ▸ hj), ?parity⟩
  case parity =>
    rw [← hlen, nxt_getElem?_last _ hpos, Option.some_inj, Bool.eq_iff_iff, decide_eq_true_eq, fb_eq_true_iff]

/-- LRESET ends with the configured vector, whatever the register held: also after LLOAD or another LRESET. -/
theorem execAll_then_lreset {i : Instr} {s : State} {c : CoreState} {r : Reg} {v : Bits} {val : Option Value}
    (h : exec i s = .next (completed s (setReg c r v) val)) :
    ∃ t, execAll [i, .lreset r] s = .next t ∧ t.core = some { c with S := c.S.set r (c.cfg.I.get r) } := by
  have hreset := exec_lreset (completed_core s (setReg c r v) val) r
  refine ⟨_, (execAll_cons h).trans (execAll_cons hreset), ?_⟩
  simp [setReg]

/-- Settles O10. -/
theorem lresetRestoresTheConfiguredState : Obligations.LresetRestoresTheConfiguredState := fun _ _ r hc =>
  ⟨decode_encode (i := .lreset r) rfl, exec_lreset hc r, fun _ hv => execAll_then_lreset (exec_lload hc r hv),
    execAll_then_lreset (exec_lreset hc r)⟩

/-- Settles O11. -/
theorem lloadLoadsOrRaisesConfigError : Obligations.LloadLoadsOrRaisesConfigError := by
  intro s c r v hc
  refine ⟨fun hpos hle => ?word, exec_lload hc r, fun hne => ?wrongLength⟩
  case word => exact decode_encode (i := .lload r (.vector v)) ((vectorOk_iff v).mpr ⟨hpos, hle⟩)
  case wrongLength =>
    have herror : errorOf (.lload r (.vector v)) c = .configError := if_neg hne
    rw [exec_faults hc (by rw [herror]; decide), herror]

/-- Settles O12. -/
theorem lreadRespondsTheRegister : Obligations.LreadRespondsTheRegister := fun _ _ r hc =>
  ⟨decode_encode (i := .lread r) rfl, exec_completes (i := .lread r) hc rfl (fitsCapacity_zero _)⟩

/-! ### The all-zero state (R87) -/

/-- A state that steps to itself stays for any number of steps. -/
theorem stepsFrom_of_nxt_eq {T s : Bits} (h : nxt T s = s) (k : Nat) : stepsFrom T k s = s := by
  induction k with
  | zero => rfl
  | succ k ih => rw [stepsFrom, h, ih]

theorem nxt_replicate_false (T : Bits) {n : Nat} (h : 1 ≤ n) :
    nxt T (List.replicate n false) = List.replicate n false := by
  obtain ⟨m, rfl⟩ := Nat.exists_eq_add_of_le' h
  rw [nxt, fb_replicate_false_right, List.drop_replicate, Nat.add_sub_cancel, ← List.replicate_succ']

theorem outbit_replicate_false (n : Nat) : outbit (List.replicate n false) = false := by
  cases n <;> rfl

/-- Settles O13. -/
theorem allZeroIsAFixedPoint : Obligations.AllZeroIsAFixedPoint := by
  refine ⟨fun T n hn => ⟨fb_replicate_false_right T n, nxt_replicate_false T hn, outbit_replicate_false n,
    fun k => ?later⟩, fun s c r hc hinv hzero => ?lstep⟩
  case later =>
    have hstays := stepsFrom_of_nxt_eq (nxt_replicate_false T hn) k
    exact ⟨hstays, by rw [outputAt, hstays, outbit_replicate_false]⟩
  case lstep =>
    have hnxt : nxt (c.cfg.T.get r) (c.S.get r) = c.S.get r := by
      rw [hzero]
      exact nxt_replicate_false _ hinv.width_pos
    have hexec := exec_lstep hc r
    rw [hnxt, setReg, PerReg.set_get] at hexec
    refine ⟨_, hexec, rfl, warnBits c, _, rfl, (warnBits_get_eq_true c r).mpr fun b hb => ?_⟩
    rw [hzero] at hb
    exact List.eq_of_mem_replicate hb

/-! ### The recurrence (R88) -/

/-- One step more, taken at the end. -/
theorem stepsFrom_succ (T : Bits) (k : Nat) (s : Bits) : stepsFrom T (k + 1) s = nxt T (stepsFrom T k s) :=
  stepsFrom_add T k 1 s

/-- Element `j` of the state before step `t` is output `t + j`: each step brings it one place nearer. -/
theorem stepsFrom_getElem? (T : Bits) {s : Bits} (t : Nat) {j : Nat} (h : j < s.length) :
    (stepsFrom T t s)[j]? = some (outputAt T s (t + j)) := by
  have hpos : 1 ≤ s.length := by omega
  induction j generalizing t with
  | zero => exact getElem?_zero_eq_outbit (by rwa [stepsFrom_length t hpos])
  | succ j ih =>
    rw [← nxt_getElem?_of_lt T (by rwa [stepsFrom_length t hpos]), ← stepsFrom_succ, ih (t + 1) (by omega),
      Nat.add_assoc, Nat.add_comm 1]

/-- The state before step `t` is the window of outputs from `t` on. -/
theorem stepsFrom_eq_window (T : Bits) {s : Bits} (hpos : 1 ≤ s.length) (t : Nat) :
    stepsFrom T t s = (List.range s.length).map fun j => outputAt T s (t + j) := by
  refine List.ext_getElem? fun j => ?_
  by_cases hj : j < s.length
  · simp [stepsFrom_getElem? T t hj, hj]
  · have hge : s.length ≤ j := Nat.not_lt.mp hj
    rw [List.getElem?_eq_none (by rwa [stepsFrom_length t hpos]), List.getElem?_eq_none (by simpa using hge)]

/-- Settles O14: output `t + W` is the last element of the state before step `t + 1`, the feedback of the window
before it. -/
theorem outputsSatisfyTheRecurrence : Obligations.OutputsSatisfyTheRecurrence := by
  intro T s hpos _
  refine ⟨stepsFrom_eq_window T hpos, fun j hj => ?initial, fun t => ?recurrence⟩
  case initial => simpa [stepsFrom] using stepsFrom_getElem? T 0 hj
  case recurrence =>
    have hlast : (stepsFrom T (t + 1) s)[s.length - 1]? = some (outputAt T s (t + s.length)) := by
      rw [stepsFrom_getElem? T (t + 1) (by omega), show t + 1 + (s.length - 1) = t + s.length by omega]
    have hfb := nxt_getElem?_last T (s := stepsFrom T t s) (by rwa [stepsFrom_length t hpos])
    rw [stepsFrom_length t hpos, ← stepsFrom_succ, hlast, Option.some_inj] at hfb
    rw [hfb, ← stepsFrom_eq_window T hpos]

/-! ### When a step can be undone (R89) -/

theorem exists_eq_cons_of_first {T : Bits} {t : Bit} (h : T[0]? = some t) : ∃ T', T = t :: T' :=
  List.head?_eq_some_iff.mp (List.head?_eq_getElem? ▸ h)

/-- With index 0 tapped the dropped element is read back from the appended bit. -/
theorem nxt_injective_of_tapped {T s s' : Bits} (h0 : T[0]? = some true) (hpos : 1 ≤ s.length)
    (hlen : s.length = s'.length) (h : nxt T s = nxt T s') : s = s' := by
  obtain ⟨T, rfl⟩ := exists_eq_cons_of_first h0
  cases s with
  | nil => cases hpos
  | cons b v =>
    cases s' with
    | nil => cases hlen
    | cons b' v' =>
      obtain ⟨rfl, hbit⟩ := List.append_inj h (Nat.succ.inj hlen)
      simpa using hbit

/-- With index 0 tapped every vector is a next state: the dropped element is chosen to give the appended bit. -/
theorem exists_nxt_eq_of_tapped {T u : Bits} (h0 : T[0]? = some true) (hpos : 1 ≤ u.length) :
    ∃ s : Bits, s.length = u.length ∧ nxt T s = u := by
  obtain ⟨T, rfl⟩ := exists_eq_cons_of_first h0
  obtain rfl | ⟨v, b, rfl⟩ := List.eq_nil_or_concat u
  · cases hpos
  · exact ⟨(b ^^ fb T v) :: v, by simp, by simp⟩

/-- The vector `10...0` of width `n + 1`: the state on which a step with index 0 not tapped loses its one. -/
def leadingOne (n : Nat) : Bits := true :: List.replicate n false

@[simp] theorem leadingOne_length (n : Nat) : (leadingOne n).length = n + 1 := by
  simp [leadingOne]

theorem leadingOne_ne_replicate_false (n : Nat) : leadingOne n ≠ List.replicate (n + 1) false := by
  simp [leadingOne, List.replicate_succ]

/-- R89's example for every width: with index 0 not tapped `10...0` steps to all-zero. -/
theorem nxt_leadingOne_of_untapped {T : Bits} (h0 : T[0]? = some false) (n : Nat) :
    nxt T (leadingOne n) = List.replicate (n + 1) false := by
  obtain ⟨T, rfl⟩ := exists_eq_cons_of_first h0
  simp [leadingOne, List.replicate_succ']

/-- From there it never comes back. -/
theorem stepsFrom_leadingOne_ne {T : Bits} (h0 : T[0]? = some false) (n : Nat) {k : Nat} (hk : 1 ≤ k) :
    stepsFrom T k (leadingOne n) ≠ leadingOne n := by
  obtain ⟨k, rfl⟩ := Nat.exists_eq_add_of_le' hk
  rw [stepsFrom, nxt_leadingOne_of_untapped h0, stepsFrom_of_nxt_eq (nxt_replicate_false T (Nat.le_add_left 1 n))]
  exact (leadingOne_ne_replicate_false n).symm

/-! ### Repeated states (R89, R90) -/

theorem pk_replicate_false (n : Nat) : pk (List.replicate n false) = 0 := by
  induction n with
  | zero => rfl
  | succ n ih => simp [List.replicate_succ, pk, ih]

/-- Vectors of one length with one packing are one vector. -/
theorem pk_injective_of_length {u v : Bits} (hlen : u.length = v.length) (h : pk u = pk v) : u = v := by
  rw [← unpk_pk u, ← unpk_pk v, hlen, h]

/-- Once a state repeats, the sequence is periodic from there. -/
theorem stepsFrom_periodic_of_repeat {T s : Bits} {i p : Nat} (h : stepsFrom T (i + p) s = stepsFrom T i s) {k : Nat}
    (hk : i ≤ k) : stepsFrom T (k + p) s = stepsFrom T k s := by
  obtain ⟨d, rfl⟩ := Nat.exists_eq_add_of_le hk
  rw [Nat.add_right_comm, stepsFrom_add, h, ← stepsFrom_add]

/-- There are `2^W - 1` states that are not all-zero, so among `2^W` of them one repeats. -/
theorem exists_repeat_of_never_zero {T s : Bits} (hpos : 1 ≤ s.length)
    (hne : ∀ k, stepsFrom T k s ≠ List.replicate s.length false) :
    ∃ i p, 1 ≤ p ∧ p ≤ 2 ^ s.length - 1 ∧ stepsFrom T (i + p) s = stepsFrom T i s := by
  have hlen : ∀ k, (stepsFrom T k s).length = s.length := fun k => stepsFrom_length k hpos
  have hrange : ∀ k ∈ Finset.range (2 ^ s.length), pk (stepsFrom T k s) ∈ Finset.Ico 1 (2 ^ s.length) := by
    intro k _
    refine Finset.mem_Ico.mpr ⟨Nat.one_le_iff_ne_zero.mpr fun hzero => hne k ?_, hlen k ▸ pk_lt _⟩
    exact pk_injective_of_length (by simp [hlen k]) (by rw [hzero, pk_replicate_false])
  have hcard : (Finset.Ico 1 (2 ^ s.length)).card < (Finset.range (2 ^ s.length)).card := by
    have := Nat.two_pow_pos s.length
    rw [Nat.card_Ico, Finset.card_range]
    omega
  obtain ⟨i, hi, j, hj, hij, hpk⟩ := Finset.exists_ne_map_eq_of_card_lt_of_maps_to hcard hrange
  have heq : stepsFrom T i s = stepsFrom T j s := pk_injective_of_length (by rw [hlen, hlen]) hpk
  rw [Finset.mem_range] at hi hj
  obtain hlt | hlt := Nat.lt_or_gt_of_ne hij
  · exact ⟨i, j - i, by omega, by omega, by rw [Nat.add_sub_cancel' hlt.le, heq]⟩
  · exact ⟨j, i - j, by omega, by omega, by rw [Nat.add_sub_cancel' hlt.le, heq]⟩

/-- Some state repeats within `2^W - 1` steps: the all-zero one at once, if it occurs. -/
theorem exists_repeat (T : Bits) {s : Bits} (hpos : 1 ≤ s.length) :
    ∃ i p, 1 ≤ p ∧ p ≤ 2 ^ s.length - 1 ∧ stepsFrom T (i + p) s = stepsFrom T i s := by
  by_cases hzero : ∃ k, stepsFrom T k s = List.replicate s.length false
  case neg => exact exists_repeat_of_never_zero hpos (not_exists.mp hzero)
  case pos =>
    obtain ⟨k, hk⟩ := hzero
    have htwo : 2 ≤ 2 ^ s.length := Nat.le_self_pow (by omega) 2
    exact ⟨k, 1, Nat.le_refl 1, by omega, by rw [stepsFrom_succ, hk, nxt_replicate_false T hpos]⟩

/-- With index 0 tapped, equal states come from equal states any number of steps before. -/
theorem stepsFrom_injective_of_tapped {T : Bits} (h0 : T[0]? = some true) (k : Nat) {s s' : Bits} (hpos : 1 ≤ s.length)
    (hlen : s.length = s'.length) (h : stepsFrom T k s = stepsFrom T k s') : s = s' := by
  induction k generalizing s s' with
  | zero => exact h
  | succ k ih =>
    have hnxt : nxt T s = nxt T s' :=
      ih (by rwa [nxt_length hpos]) (by rw [nxt_length hpos, nxt_length (hlen ▸ hpos), hlen]) h
    exact nxt_injective_of_tapped h0 hpos hlen hnxt

/-- With index 0 tapped the start itself repeats, so the sequence is periodic from the start. -/
theorem exists_period_of_tapped {T s : Bits} (h0 : T[0]? = some true) (hpos : 1 ≤ s.length) :
    ∃ p, 1 ≤ p ∧ p ≤ 2 ^ s.length - 1 ∧ ∀ k, stepsFrom T (k + p) s = stepsFrom T k s := by
  obtain ⟨i, p, hp, hle, hrepeat⟩ := exists_repeat T hpos
  rw [Nat.add_comm, stepsFrom_add] at hrepeat
  have hlen := stepsFrom_length (T := T) p hpos
  have hstart : stepsFrom T p s = s := stepsFrom_injective_of_tapped h0 i (by rwa [hlen]) hlen hrepeat
  exact ⟨p, hp, hle, fun k => stepsFrom_periodic_of_repeat (i := 0) (by simpa [stepsFrom] using hstart) k.zero_le⟩

/-- Settles O15. -/
theorem stepIsInvertibleExactlyWithTapZero : Obligations.StepIsInvertibleExactlyWithTapZero := by
  intro W T hW hT
  obtain ⟨n, rfl⟩ := Nat.exists_eq_add_of_le' hW
  have hzeroLength : (List.replicate (n + 1) false).length = n + 1 := List.length_replicate
  have hmerge (h0 : T[0]? = some false) : nxt T (leadingOne n) = nxt T (List.replicate (n + 1) false) := by
    rw [nxt_leadingOne_of_untapped h0, nxt_replicate_false T hW]
  refine ⟨⟨fun ⟨hinj, _⟩ => ?tapped, fun h0 => ⟨fun s s' hs hs' => ?injective, fun u hu => ?surjective⟩⟩,
    fun h0 => ⟨fun s hs hzero => ?onlyZero, fun s hs => ?periodic⟩, fun h0 => ⟨?merged, ?toZero, ?neverBack⟩⟩
  case tapped =>
    have hfirst : T[0]? = some T[0] := List.getElem?_eq_getElem (by omega)
    cases htap : T[0] with
    | true => rw [hfirst, htap]
    | false =>
      have hsame := hinj _ _ (leadingOne_length n) hzeroLength (hmerge (by rw [hfirst, htap]))
      exact absurd hsame (leadingOne_ne_replicate_false n)
  case injective => exact nxt_injective_of_tapped h0 (hs ▸ hW) (hs.trans hs'.symm)
  case surjective => exact hu ▸ exists_nxt_eq_of_tapped h0 (hu ▸ hW)
  case onlyZero =>
    exact nxt_injective_of_tapped h0 (hs ▸ hW) (hs.trans hzeroLength.symm)
      (hzero.trans (nxt_replicate_false T hW).symm)
  case periodic =>
    obtain ⟨p, hp, -, hperiod⟩ := exists_period_of_tapped h0 (hs ▸ hW)
    exact ⟨p, hp, hperiod⟩
  case merged =>
    exact ⟨leadingOne n, _, leadingOne_length n, hzeroLength, leadingOne_ne_replicate_false n, hmerge h0⟩
  case toZero =>
    exact ⟨leadingOne n, leadingOne_length n, leadingOne_ne_replicate_false n, nxt_leadingOne_of_untapped h0 n⟩
  case neverBack => exact ⟨leadingOne n, leadingOne_length n, fun _ hk => stepsFrom_leadingOne_ne h0 n hk⟩

/-- The reference G0 passes through every vector of four elements but all-zero (95_test_vectors.md V-L2). -/
theorem reference_g0_reaches_nonzero : ∀ a b c d : Bit, [a, b, c, d] ≠ [false, false, false, false] →
    ∃ k, k < 15 ∧ stepsFrom [true, true, false, false] k [false, true, false, false] = [a, b, c, d] := by
  decide

/-- The reference G0 is not back at its start before 15 steps. -/
theorem reference_g0_not_back : ∀ p < 15, 1 ≤ p →
    stepsFrom [true, true, false, false] p [false, true, false, false] ≠ [false, true, false, false] := by
  decide

/-- Settles O16. -/
theorem periodIsBounded : Obligations.PeriodIsBounded := by
  refine ⟨fun T s hpos _ => ⟨?eventually, fun h0 => exists_period_of_tapped h0 hpos⟩, by decide,
    fun p hp hlt => reference_g0_not_back p hlt hp, fun v hlen hne => ?allNonzero⟩
  case eventually =>
    obtain ⟨i, p, hp, hle, hrepeat⟩ := exists_repeat T hpos
    exact ⟨i, p, hp, hle, fun k hk => stepsFrom_periodic_of_repeat hrepeat hk⟩
  case allNonzero =>
    obtain ⟨a, b, c, d, rfl⟩ := List.length_eq_four.mp hlen
    exact reference_g0_reaches_nonzero a b c d hne

end Sys2Proof.Machine

/-!
PROOFS. The statements of spec/41_combiner.md: the selector with its counts and its algebraic forms (R100 to R104), and
its command (R101).
-/

namespace Sys2Proof.Machine

/-! ### The selector (R100 to R104) -/

@[simp] theorem combineBits_control_false (b0 b1 : Bit) : combineBits b0 b1 false = b0 := rfl

@[simp] theorem combineBits_control_true (b0 b1 : Bit) : combineBits b0 b1 true = b1 := rfl

/-- Settles O17: the selector is the definition of `combineBits`, and the eight rows are counted out. -/
theorem combinerSelectsAndIsUnbalanced : Obligations.CombinerSelectsAndIsUnbalanced := by
  refine ⟨fun _ _ _ => rfl, ?counts⟩
  case counts => decide

/-- Settles O18: with control bit 0 both forms leave `b0`, and with control bit 1 they leave `b1`. -/
theorem combinerHasItsAlgebraicForm : Obligations.CombinerHasItsAlgebraicForm := by
  intro b0 b1 c
  cases c with
  | false =>
    rw [combineBits_control_false]
    simp
  | true =>
    rw [combineBits_control_true]
    simp

/-! ### COMBINE (R101) -/

/-- Three packed bits, the first in bit 2 (00_scope.md R10, 30_encoding.md R65). -/
theorem pk_three (b0 b1 c : Bit) : pk [b0, b1, c] = 4 * b0.toNat + 2 * b1.toNat + c.toNat := by
  simp only [pk, List.length_cons, List.length_nil]
  ring

theorem decode_combine (b0 b1 c : Bit) :
    decode (joinWord ⟨5, 0, 0, 0, BitVec.ofNat 16 (pk [b0, b1, c])⟩) = .ok (.combine b0 b1 c) :=
  decode_encode (i := .combine b0 b1 c) rfl

theorem exec_combine {s : State} {c : CoreState} (hc : s.core = some c) (b0 b1 ctl : Bit) :
    exec (.combine b0 b1 ctl) s = .next (completed s c (some (.bit (combineBits b0 b1 ctl)))) :=
  exec_completes (i := .combine b0 b1 ctl) hc rfl (fitsCapacity_zero _)

/-- Settles O19: the operands are read from `data[2:0]`, and the effect of COMBINE is the core itself. -/
theorem combineRespondsTheSelectedBit : Obligations.CombineRespondsTheSelectedBit :=
  fun _ _ b0 b1 ctl hc => ⟨pk_three b0 b1 ctl ▸ decode_combine b0 b1 ctl, exec_combine hc b0 b1 ctl⟩

end Sys2Proof.Machine

/-!
PROOFS. The statements of spec/42_generator.md: the lockstep step and its order (R110, R114), GSTEP, GENERATE and
GRESET (R111 to R113), and what a keystream depends on (R115 to R117). First the three commands as they complete, and
how a keystream run splits into two; each statement then reads the keystream off its closed form.
-/

namespace Sys2Proof

/-- Writes to two registers commute. -/
theorem PerReg.set_comm {α : Type} (p : PerReg α) {r r' : Reg} (h : r ≠ r') (v w : α) :
    (p.set r v).set r' w = (p.set r' w).set r v := by
  revert h
  cases r <;> cases r' <;> simp

end Sys2Proof

namespace Sys2Proof.Machine

/-! ### The order of the three register steps (R114) -/

/-- One iteration of the loop, with the output bit kept for the join. -/
def stepKeepingBit (p : CoreState × PerReg Bit) (r : Reg) : CoreState × PerReg Bit :=
  ((stepTraced p.1 r).1, p.2.set r (stepTraced p.1 r).2)

theorem stepInOrder_eq_foldl (order : List Reg) (c : CoreState) :
    stepInOrder order c = order.foldl stepKeepingBit (c, ⟨false, false, false⟩) := rfl

/-- A register step reads and writes its own register and trace only, so two of them commute. -/
theorem stepKeepingBit_comm (p : CoreState × PerReg Bit) (r r' : Reg) :
    stepKeepingBit (stepKeepingBit p r) r' = stepKeepingBit (stepKeepingBit p r') r := by
  by_cases h : r = r'
  · rw [h]
  · simp [stepKeepingBit, stepTraced_eq, PerReg.get_set_other _ _ h, PerReg.get_set_other _ _ (Ne.symm h),
      PerReg.set_comm _ h]

theorem stepInOrder_perm {order order' : List Reg} (h : order.Perm order') (c : CoreState) :
    stepInOrder order c = stepInOrder order' c := by
  rw [stepInOrder_eq_foldl, stepInOrder_eq_foldl]
  exact h.foldl_eq' (fun r _ r' _ p => stepKeepingBit_comm p r r') _

theorem stepTraced_bit_of_ne (c : CoreState) {r r' : Reg} (h : r ≠ r') :
    (stepTraced (stepTraced c r').1 r).2 = (stepTraced c r).2 := by
  simp [stepTraced_eq, PerReg.get_set_other _ _ h]

/-- Settles O23: every order gives what the order of the model gives, which is all three at once. -/
theorem lockstepOrderIsImmaterial : Obligations.LockstepOrderIsImmaterial := by
  intro c order horder
  have hatOnce : stepInOrder order c = stepAtOnce c := stepInOrder_perm horder c
  have hjoin : joinStep (stepAtOnce c) = lockstep c := rfl
  exact ⟨hatOnce ▸ hjoin, hjoin, hatOnce, fun _ _ => stepTraced_bit_of_ne c⟩

/-! ### The commands on a core they fit (R111 to R113) -/

theorem exec_gstep {s : State} {c : CoreState} (hc : s.core = some c) (hinv : CoreInv c)
    (hfit : fitsCapacity s.params (c.KS.length + 1) = true) :
    exec .gstep s = .next (completed s (lockstep c).1 (some (.bit (lockstep c).2))) :=
  exec_completes (i := .gstep) hc rfl ((congrArg (fitsCapacity s.params) hinv.grownLength_eq).trans hfit)

theorem exec_generate {s : State} {c : CoreState} {n : Nat} (hc : s.core = some c) (hpos : 1 ≤ n)
    (hfit : fitsCapacity s.params n = true) : exec (.generate n) s = .next (completed s (keystream n c) none) :=
  exec_completes (i := .generate n) hc (if_neg (Nat.one_le_iff_ne_zero.mp hpos)) hfit

/-- The core after GRESET (R113). -/
def resetCore (c : CoreState) : CoreState := { c with S := c.cfg.I, LEN := 0 }

@[simp] theorem resetCore_cfg (c : CoreState) : (resetCore c).cfg = c.cfg := rfl
@[simp] theorem resetCore_S (c : CoreState) : (resetCore c).S = c.cfg.I := rfl

theorem exec_greset {s : State} {c : CoreState} (hc : s.core = some c) :
    exec .greset s = .next (completed s (resetCore c) none) :=
  exec_completes (i := .greset) hc rfl (fitsCapacity_zero _)

/-- The pair of R116: a keystream from the configured states. -/
theorem execAll_greset_generate {s : State} {c : CoreState} {n : Nat} (hc : s.core = some c) (hpos : 1 ≤ n)
    (hfit : fitsCapacity s.params n = true) :
    ∃ t, execAll [.greset, .generate n] s = .next t ∧ t.core = some (keystream n (resetCore c)) :=
  ⟨_, (execAll_cons (exec_greset hc)).trans (execAll_cons (exec_generate rfl hpos hfit)), rfl⟩

/-- The registers of a core have an element 0. -/
theorem CoreInv.reg_pos {c : CoreState} (h : CoreInv c) (r : Reg) : 1 ≤ (c.S.get r).length :=
  (h.reg_length r).symm ▸ h.width_pos

/-- The configured states have an element 0. -/
theorem CoreInv.init_pos {c : CoreState} (h : CoreInv c) (r : Reg) : 1 ≤ (c.cfg.I.get r).length :=
  (h.init_length r).symm ▸ h.width_pos

/-- Settles O20: the three bits are the elements 0 before the step, and the rest is the lockstep step itself. -/
theorem gstepAdvancesInLockstep : Obligations.GstepAdvancesInLockstep := by
  intro s c hc hinv hfit
  have hbit (r : Reg) : (c.S.get r)[0]? = some (outbit (c.S.get r)) := getElem?_zero_eq_outbit (hinv.reg_pos r)
  exact ⟨decode_encode (i := .gstep) rfl, (lockstep c).2, outbit c.S.g0, outbit c.S.g1, outbit c.S.ct,
    hbit .g0, hbit .g1, hbit .ct, rfl, exec_gstep hc hinv hfit⟩

/-- The three LRESET overwrite every register in turn. -/
theorem execAll_three_lresets {s : State} {c : CoreState} (hc : s.core = some c) :
    ∃ t, execAll [.lreset .g0, .lreset .g1, .lreset .ct] s = .next t ∧ t.core = some { c with S := c.cfg.I } :=
  ⟨_, (execAll_cons (exec_lreset hc .g0)).trans
    ((execAll_cons (exec_lreset rfl .g1)).trans (execAll_cons (exec_lreset rfl .ct))), rfl⟩

/-- Settles O22: GRESET reads nothing that it writes, and the three LRESET write the same registers. -/
theorem gresetRestoresEveryRegister : Obligations.GresetRestoresEveryRegister := by
  intro s c hc
  have htwice := (execAll_cons (is := [.greset]) (exec_greset hc)).trans (execAll_cons (exec_greset rfl))
  obtain ⟨t, hlresets, hcore⟩ := execAll_three_lresets hc
  exact ⟨decode_encode (i := .greset) rfl, exec_greset hc, ⟨_, htwice, rfl⟩, t, _, hlresets, hcore, rfl, rfl⟩

/-! ### The elements of a keystream run (R110, R112) -/

theorem keystream_TR_getElem? {n k : Nat} (h : k < n) (c : CoreState) (r : Reg) :
    ((keystream n c).TR.get r)[k]? =
      some (stepRecord (c.cfg.T.get r) (stepsFrom (c.cfg.T.get r) k (c.S.get r))) := by
  simp [keystream_TR, h]

theorem keystream_KS_getElem? {n k : Nat} (h : k < n) (c : CoreState) :
    (keystream n c).KS[k]? = some (combineBits (outputAt c.cfg.T.g0 c.S.g0 k) (outputAt c.cfg.T.g1 c.S.g1 k)
      (outputAt c.cfg.T.ct c.S.ct k)) := by
  simp [keystream_KS, h]

/-- The first element of a register after any number of steps is its output bit. -/
theorem CoreInv.stepsFrom_getElem?_zero {c : CoreState} (h : CoreInv c) (r : Reg) (k : Nat) :
    (stepsFrom (c.cfg.T.get r) k (c.S.get r))[0]? = some (outputAt (c.cfg.T.get r) (c.S.get r) k) :=
  stepsFrom_getElem? _ k (h.reg_pos r)

/-- Settles O21: the new core is `keystream n c`, whose pieces are known in closed form. -/
theorem generateReplacesTheKeystream : Obligations.GenerateReplacesTheKeystream := by
  intro s c n hc hinv
  refine ⟨fun hn => decode_encode (i := .generate n) (decide_eq_true hn), fun hzero => ?badSteps, fun hpos hfit =>
    ⟨keystream n c, exec_generate hc hpos hfit, keystream_cfg n c, keystream_IN n c, keystream_OUT n c,
      keystream_LEN n c, keystream_KS_length n c, fun r => ⟨keystream_TR_length n c r, keystream_S n c r⟩,
      fun k hk => ?element⟩⟩
  case badSteps =>
    have herror : errorOf (.generate n) c = .badSteps := if_pos hzero
    rw [exec_faults hc (by rw [herror]; decide), herror]
  case element =>
    have hrecord := keystream_TR_getElem? hk c
    have hbit (r : Reg) := hinv.stepsFrom_getElem?_zero r k
    exact ⟨_, _, _, hrecord .g0, hrecord .g1, hrecord .ct, rfl, rfl, hbit .g0, rfl, rfl, hbit .g1, rfl, rfl, hbit .ct,
      keystream_KS_getElem? hk c⟩

/-! ### GENERATE as clearing and GSTEPs, and as two GENERATEs (R111, R112, R115) -/

theorem execAll_gsteps (n : Nat) {s : State} {c : CoreState} (hc : s.core = some c) (hinv : CoreInv c)
    (hfit : fitsCapacity s.params (c.KS.length + n) = true) :
    ∃ t, execAll (List.replicate n .gstep) s = .next t ∧ t.core = some (locksteps n c) := by
  induction n generalizing s c with
  | zero => exact ⟨s, rfl, hc⟩
  | succ n ih =>
    have hfirst := exec_gstep hc hinv (fitsCapacity_le hfit (by omega))
    have hlength : (lockstep c).1.KS.length + n = c.KS.length + (n + 1) := by
      simp [lockstep_core, Nat.add_assoc, Nat.add_comm 1]
    obtain ⟨t, hrest, hcore⟩ := ih (completed_core s _ _) hinv.lockstep (hlength ▸ hfit)
    exact ⟨t, (execAll_cons hfirst).trans hrest, hcore⟩

/-- Settles O24: both are `n` lockstep steps from the cleared core. -/
theorem generateIsClearThenGsteps : Obligations.GenerateIsClearThenGsteps := by
  intro s c n hc hinv hpos hfit
  obtain ⟨t', hgsteps, hcore⟩ := execAll_gsteps n (s := { s with core := some (clearKeystream c) }) rfl
    hinv.clearKeystream (by simpa using hfit)
  exact ⟨_, t', exec_generate hc hpos hfit, hgsteps, hcore.symm⟩

theorem locksteps_add (a b : Nat) (c : CoreState) : locksteps (a + b) c = locksteps b (locksteps a c) := by
  induction a generalizing c with
  | zero => rw [Nat.zero_add, locksteps]
  | succ a ih => rw [Nat.succ_add, locksteps, ih, locksteps]

theorem keystream_add (a b : Nat) (c : CoreState) : keystream (a + b) c = locksteps b (keystream a c) :=
  locksteps_add a b (clearKeystream c)

/-- Lockstep steps append what a keystream run would put into cleared buffers, and leave the same registers and
counter. -/
theorem locksteps_eq_append_keystream (n : Nat) (c : CoreState) :
    (locksteps n c).KS = c.KS ++ (keystream n c).KS ∧
      (∀ r, (locksteps n c).TR.get r = c.TR.get r ++ (keystream n c).TR.get r) ∧
      (locksteps n c).S = (keystream n c).S ∧ (locksteps n c).LEN = (keystream n c).LEN := by
  refine ⟨?KS, fun r => ?TR, PerReg.ext_get fun r => ?S, ?LEN⟩
  case KS => rw [locksteps_KS, keystream_KS]
  case TR => rw [locksteps_TR, keystream_TR]
  case S => rw [locksteps_S, keystream_S]
  case LEN =>
    obtain ⟨-, -, -, hlen⟩ := locksteps_frame n c
    rw [hlen, keystream_LEN]

/-- Settles O25: GENERATE `a + b` appends to what GENERATE `a` leaves the run that GENERATE `b` then makes. -/
theorem secondGenerateContinuesTheStream : Obligations.SecondGenerateContinuesTheStream := by
  intro s c a b hc _ ha hb hfit
  have hfirst := exec_generate hc ha (fitsCapacity_le hfit (Nat.le_add_right a b))
  have hsecond := exec_generate (completed_core s (keystream a c) none) hb (fitsCapacity_le hfit (Nat.le_add_left b a))
  obtain ⟨hks, htr, hreg, hlen⟩ := locksteps_eq_append_keystream b (keystream a c)
  rw [← keystream_add] at hks htr hreg hlen
  refine ⟨_, _, keystream b (keystream a c), _, (execAll_cons hfirst).trans (execAll_cons hsecond), rfl,
    exec_generate hc (Nat.le_add_right_of_le ha) hfit, rfl, ?KS, fun r => ?TR, hreg.symm, hlen.symm⟩
  case KS => rw [hks, List.drop_left' (keystream_KS_length a c)]
  case TR => rw [htr, List.drop_left' (keystream_TR_length a c r)]

/-! ### What the keystream depends on (R116, R117) -/

/-- A keystream run reads the configuration and the registers only. -/
theorem keystream_congr (n : Nat) {c c' : CoreState} (hcfg : c.cfg = c'.cfg) (hreg : c.S = c'.S) :
    (keystream n c).KS = (keystream n c').KS ∧ (keystream n c).TR = (keystream n c').TR ∧
      (keystream n c).S = (keystream n c').S := by
  refine ⟨?KS, PerReg.ext_get fun r => ?TR, PerReg.ext_get fun r => ?S⟩
  case KS => rw [keystream_KS, keystream_KS, hcfg, hreg]
  case TR => rw [keystream_TR, keystream_TR, hcfg, hreg]
  case S => rw [keystream_S, keystream_S, hcfg, hreg]

/-- Settles O26: after GRESET the registers are those of the configuration. -/
theorem regeneratedKeystreamIsDetermined : Obligations.RegeneratedKeystreamIsDetermined := by
  intro s s' c c' n hc hc' hcfg hpos hfit hfit'
  obtain ⟨t, hrun, hcore⟩ := execAll_greset_generate hc hpos hfit
  obtain ⟨t', hrun', hcore'⟩ := execAll_greset_generate hc' hpos hfit'
  exact ⟨t, t', _, _, hrun, hcore, hrun', hcore',
    keystream_congr n (c := resetCore c) (c' := resetCore c') hcfg (congrArg Configuration.I hcfg)⟩

/-- The first outputs of a register are its state read left to right, whatever is tapped (40_lfsr.md R88). -/
theorem outputAt_of_lt (T : Bits) {s : Bits} {k : Nat} (h : k < s.length) : outputAt T s k = s[k] := by
  have hstart := stepsFrom_getElem? T 0 h
  rw [Nat.zero_add, stepsFrom, List.getElem?_eq_getElem h, Option.some_inj] at hstart
  exact hstart.symm

/-- The first four keystream bits of the reference initial states. -/
theorem reference_first_bits (T0 T1 Tc : Bits) :
    ((List.range 4).map fun k => combineBits (outputAt T0 [false, true, false, false] k)
      (outputAt T1 [false, true, true, true] k) (outputAt Tc [false, true, true, false] k)) =
      [false, true, true, false] := by
  simp [List.range_succ, outputAt_of_lt]

/-- The first keystream bit is the first element of the register that the first element of the control selects. -/
theorem keystream_KS_zero {n : Nat} (hpos : 1 ≤ n) (c : CoreState) :
    (keystream n c).KS[0]? = some (combineBits (outbit c.S.g0) (outbit c.S.g1) (outbit c.S.ct)) :=
  keystream_KS_getElem? hpos c

/-- Settles O27. -/
theorem keystreamFormula : Obligations.KeystreamFormula := by
  intro s c n hc hinv hpos hfit
  obtain ⟨t, hrun, hcore⟩ := execAll_greset_generate hc hpos hfit
  have hbit (r : Reg) : (c.cfg.I.get r)[0]? = some (outbit (c.cfg.I.get r)) :=
    getElem?_zero_eq_outbit (hinv.init_pos r)
  have hcontrol {b : Bit} (hb : c.cfg.I.ct[0]? = some b) : outbit c.cfg.I.ct = b :=
    Option.some.inj ((hbit .ct).symm.trans hb)
  have hfirst := keystream_KS_zero hpos (resetCore c)
  rw [resetCore_S] at hfirst
  refine ⟨t, _, hrun, hcore, fun k hk => ⟨keystream_KS_getElem? hk (resetCore c), fun r => ?oldState⟩,
    fun hone => ?selectsG1, fun hzero => ?selectsG0, fun hreference hfour => ?firstBits⟩
  case oldState => rw [keystream_TR_getElem? hk]; rfl
  case selectsG1 => rw [hfirst, hcontrol hone, combineBits_control_true]; exact (hbit .g1).symm
  case selectsG0 => rw [hfirst, hcontrol hzero, combineBits_control_false]; exact (hbit .g0).symm
  case firstBits =>
    rw [keystream_KS, ← List.map_take, List.take_range, Nat.min_eq_left hfour, resetCore_S, hreference]
    exact reference_first_bits _ _ _

/-! ### The warnings of GENERATE (R112) -/

/-- An all-zero register stays all-zero (40_lfsr.md R87). -/
theorem stepsFrom_zero_of_le {T s : Bits} {W k n : Nat} (hW : 1 ≤ W) (hkn : k ≤ n)
    (hzero : stepsFrom T k s = List.replicate W false) : stepsFrom T n s = List.replicate W false := by
  obtain ⟨d, rfl⟩ := Nat.exists_eq_add_of_le hkn
  rw [stepsFrom_add, hzero, stepsFrom_of_nxt_eq (nxt_replicate_false T hW)]

/-- The warning of a register of the configured width. -/
theorem CoreInv.warnBits_iff {c : CoreState} (h : CoreInv c) (r : Reg) :
    (warnBits c).get r = true ↔ c.S.get r = List.replicate c.cfg.W false := by
  rw [warnBits_get_eq_true, List.eq_replicate_iff]
  exact ⟨fun hall => ⟨h.reg_length r, hall⟩, fun ⟨_, hall⟩ => hall⟩

/-- Settles O28: the warning is read after the last step, and a register that was all-zero before is so still. -/
theorem generateWarnsExactlyWhenAllZeroOccurred : Obligations.GenerateWarnsExactlyWhenAllZeroOccurred := by
  intro s c n r hc hinv hpos hfit
  have hfinal : (warnBits (keystream n c)).get r = true ↔
      stepsFrom (c.cfg.T.get r) n (c.S.get r) = List.replicate c.cfg.W false := by
    rw [(hinv.keystream n).warnBits_iff, keystream_S, keystream_cfg]
  exact ⟨_, _, exec_generate hc hpos hfit, rfl, hfinal.trans ⟨fun hzero => ⟨n, Nat.le_refl n, hzero⟩,
    fun ⟨_, hkn, hzero⟩ => stepsFrom_zero_of_le hinv.width_pos hkn hzero⟩⟩

end Sys2Proof.Machine

/-!
PROOFS. The statements of spec/43_cipher.md: the laws of `xorseq` (R130, R135), the four commands of the XOR stage
(R131 to R134), and the round trip of encryption and decryption (R136). CRYPT XORs the input with the keystream of the
configuration, which depends on nothing else; so the round trip is the cancellation law of `xorseq`.
-/

namespace Sys2Proof.Machine

/-! ### The XOR of two sequences (R130, R135) -/

theorem xorseq_length {p k : Bits} (h : p.length = k.length) : (xorseq p k).length = p.length := by
  rw [xorseq, List.length_zipWith, h, Nat.min_self]

theorem xorseq_getElem? {p k : Bits} {i : Nat} {a b : Bit} (ha : p[i]? = some a) (hb : k[i]? = some b) :
    (xorseq p k)[i]? = some (a ^^ b) := by
  rw [xorseq, List.getElem?_zipWith, ha, hb]

theorem xorseq_comm (p k : Bits) : xorseq p k = xorseq k p := List.zipWith_comm_of_comm Bool.xor_comm

/-- Applying the same sequence twice returns the input (R135). -/
theorem xorseq_cancel {p k : Bits} (h : p.length = k.length) : xorseq (xorseq p k) k = p := by
  induction p generalizing k with
  | nil => rfl
  | cons a p ih =>
    cases k with
    | nil => cases h
    | cons b k =>
      have hhead : ((a ^^ b) ^^ b) = a := by rw [Bool.xor_assoc, Bool.xor_self, Bool.xor_false]
      exact List.cons_eq_cons.mpr ⟨hhead, ih (Nat.succ.inj h)⟩

/-- The input and the output together give back the keystream (R135). -/
theorem xorseq_cancel_left {p k : Bits} (h : p.length = k.length) : xorseq p (xorseq p k) = k := by
  rw [xorseq_comm p (xorseq p k), xorseq_comm p k, xorseq_cancel h.symm]

theorem xorseq_self (p : Bits) : xorseq p p = List.replicate p.length false := by
  induction p with
  | nil => rfl
  | cons a p ih => exact List.cons_eq_cons.mpr ⟨Bool.xor_self a, ih⟩

/-- Settles O30. -/
theorem xorSequenceIsPositionwise : Obligations.XorSequenceIsPositionwise :=
  fun _ _ h => ⟨xorseq_length h, fun _ _ _ => xorseq_getElem?⟩

/-- Settles O31. -/
theorem xorSequenceIsSelfInverse : Obligations.XorSequenceIsSelfInverse :=
  fun p _ h => ⟨xorseq_cancel h, xorseq_cancel_left h, xorseq_self p⟩

/-! ### The commands on a core they fit (R131 to R134) -/

/-- A command whose fault is known aborts with it. -/
theorem exec_aborts {i : Instr} {s : State} {c : CoreState} {e : ErrorKind} (hc : s.core = some c)
    (herror : errorOf i c = e) (hfault : e ≠ .ok) : exec i s = .next (aborted s c e) := by
  subst herror
  exact exec_faults hc hfault

theorem exec_inclr {s : State} {c : CoreState} (hc : s.core = some c) :
    exec .inclr s = .next (completed s { c with IN := [] } none) :=
  exec_completes (i := .inclr) hc rfl (fitsCapacity_zero _)

theorem exec_inld {s : State} {c : CoreState} {v : Bits} (hc : s.core = some c)
    (hfit : fitsCapacity s.params (c.IN.length + v.length) = true) :
    exec (.inld v) s = .next (completed s { c with IN := c.IN ++ v } none) :=
  exec_completes (i := .inld v) hc rfl hfit

theorem exec_apply {s : State} {c : CoreState} (hc : s.core = some c) (hlen : c.IN.length = c.KS.length)
    (hfit : fitsCapacity s.params c.IN.length = true) :
    exec .apply s = .next (completed s { c with OUT := xorseq c.IN c.KS } none) :=
  exec_completes (i := .apply) hc (if_pos hlen) hfit

/-- The core after CRYPT `n`: the keystream run of GENERATE `n`, and the XOR of APPLY (R134). -/
def cryptCore (n : Nat) (c : CoreState) : CoreState :=
  { keystream n c with OUT := xorseq c.IN (keystream n c).KS }

@[simp] theorem cryptCore_OUT (n : Nat) (c : CoreState) :
    (cryptCore n c).OUT = xorseq c.IN (keystream n c).KS := rfl

theorem exec_crypt {s : State} {c : CoreState} {n : Nat} (hc : s.core = some c) (hpos : 1 ≤ n)
    (hlen : c.IN.length = n) (hfit : fitsCapacity s.params n = true) :
    exec (.crypt n) s = .next (completed s (cryptCore n c) none) :=
  exec_completes (i := .crypt n) hc ((if_neg (Nat.one_le_iff_ne_zero.mp hpos)).trans (if_pos hlen)) hfit

/-- Settles O32. -/
theorem inclrEmptiesTheInput : Obligations.InclrEmptiesTheInput :=
  fun _ _ hc => ⟨decode_encode (i := .inclr) rfl, exec_inclr hc⟩

/-- Settles O33. -/
theorem inldAppendsToTheInput : Obligations.InldAppendsToTheInput := fun _ _ v hc hpos hle hfit =>
  ⟨decode_encode (i := .inld v) ((vectorOk_iff v).mpr ⟨hpos, hle⟩), exec_inld hc hfit⟩

/-- Settles O34: the new `OUT` is the XOR of the two buffers, read position by position. -/
theorem applyXorsInputAndKeystream : Obligations.ApplyXorsInputAndKeystream := fun _ c hc =>
  ⟨decode_encode (i := .apply) rfl,
    fun hne => exec_aborts (i := .apply) hc (if_neg hne) (by decide),
    fun hlen hfit => ⟨xorseq c.IN c.KS, exec_apply hc hlen hfit, xorseq_length hlen, fun _ _ _ => xorseq_getElem?⟩⟩

/-- GENERATE leaves `IN` and makes `KS` as long, so APPLY completes after it, with the core of CRYPT (R134). -/
theorem execAll_generate_apply {s : State} {c : CoreState} {n : Nat} (hc : s.core = some c) (hpos : 1 ≤ n)
    (hlen : c.IN.length = n) (hfit : fitsCapacity s.params n = true) :
    ∃ t, execAll [.generate n, .apply] s = .next t ∧ t.core = some (cryptCore n c) := by
  have hgenerate := exec_generate hc hpos hfit
  have happly := exec_apply (completed_core s (keystream n c) none)
    (by rw [keystream_IN, keystream_KS_length, hlen]) (by rw [keystream_IN, hlen]; exact hfit)
  refine ⟨_, (execAll_cons hgenerate).trans (execAll_cons happly), ?core⟩
  case core => simp [cryptCore]

/-- Settles O35. -/
theorem cryptIsGenerateThenApply : Obligations.CryptIsGenerateThenApply := by
  intro s c n hc _
  refine ⟨fun hn => decode_encode (i := .crypt n) (decide_eq_true hn), fun hzero => ?badSteps,
    fun hpos hne => ?lengthMismatch, fun hpos hlen hfit => ?completes⟩
  case badSteps => exact exec_aborts (i := .crypt n) hc (if_pos hzero) (by decide)
  case lengthMismatch =>
    have hnonzero : n ≠ 0 := Nat.one_le_iff_ne_zero.mp hpos
    exact exec_aborts (i := .crypt n) hc ((if_neg hnonzero).trans (if_neg hne)) (by decide)
  case completes =>
    obtain ⟨t, hrun, hcore⟩ := execAll_generate_apply hc hpos hlen hfit
    exact ⟨_, t, exec_crypt hc hpos hlen hfit, hrun, hcore⟩

/-! ### The round trip (R136) -/

/-- The keystream of a configuration: `n` bits from its initial states (42_generator.md R116). -/
def configuredKeystream (cfg : Configuration) (n : Nat) : Bits := (keystream n (freshCore cfg)).KS

theorem configuredKeystream_length (cfg : Configuration) (n : Nat) : (configuredKeystream cfg n).length = n :=
  keystream_KS_length n _

/-- After GRESET any core generates the keystream of its configuration. -/
theorem keystream_resetCore_KS (n : Nat) (c : CoreState) :
    (keystream n (resetCore c)).KS = configuredKeystream c.cfg n := by
  obtain ⟨hks, -, -⟩ := keystream_congr n (c := resetCore c) (c' := freshCore c.cfg) rfl rfl
  exact hks

/-- The first four keystream bits of the reference initial states, whatever is tapped (42_generator.md R117). -/
theorem configuredKeystream_take_four {cfg : Configuration} {n : Nat} (hfour : 4 ≤ n)
    (hreference : cfg.I =
      ⟨[false, true, false, false], [false, true, true, true], [false, true, true, false]⟩) :
    (configuredKeystream cfg n).take 4 = [false, true, true, false] := by
  rw [configuredKeystream, keystream_KS, ← List.map_take, List.take_range, Nat.min_eq_left hfour, freshCore_S,
    hreference]
  exact reference_first_bits _ _ _

/-- No run of commands writes the parameters (10_state.md R24). -/
theorem execAll_next_params {is : List Instr} {s t : State} (h : execAll is s = .next t) : t.params = s.params := by
  induction is generalizing s with
  | nil => cases h; rfl
  | cons i is ih =>
    rw [execAll] at h
    split at h
    next u hfirst =>
      obtain ⟨c, hc, -⟩ := exec_next hfirst
      obtain ⟨hparams, -, -⟩ := commandsKeepTheConfiguration i s u c hc hfirst
      exact (ih h).trans hparams
    next => cases h
    next => cases h

/-- The commands of ENCRYPT put into `OUT` the XOR of the bit string with the keystream of the configuration,
whatever else the core holds. -/
theorem execAll_encryptCommands {s : State} {c : CoreState} {p : Bits} (hc : s.core = some c) (hpos : 1 ≤ p.length)
    (hfit : fitsCapacity s.params p.length = true) :
    ∃ t d, execAll (encryptCommands p) s = .next t ∧ t.core = some d ∧
      d.OUT = xorseq p (configuredKeystream c.cfg p.length) := by
  obtain ⟨-, u, hinset, hu⟩ := insetSuppliesTheWholeInput s c p hc hpos hfit
  have hreset := exec_greset hu
  have hcrypt := exec_crypt (completed_core u (resetCore { c with IN := p }) none) hpos rfl
    (execAll_next_params hinset ▸ hfit)
  refine ⟨_, _, (execAll_append hinset).trans ((execAll_cons hreset).trans (execAll_cons hcrypt)), rfl, ?output⟩
  case output => rw [cryptCore_OUT, keystream_resetCore_KS]; rfl

/-- Settles O36: both runs XOR with the keystream of the one configuration. -/
theorem decryptionReturnsThePlaintext : Obligations.DecryptionReturnsThePlaintext := by
  intro s s' c c' p hc hc' hcfg _ hpos hfit hfit'
  have hkey : p.length = (configuredKeystream c.cfg p.length).length := (configuredKeystream_length _ _).symm
  obtain ⟨t, d, hencrypt, hd, hcipher⟩ := execAll_encryptCommands hc hpos hfit
  have hlen : d.OUT.length = p.length := hcipher ▸ xorseq_length hkey
  obtain ⟨t', d', hdecrypt, hd', hplain⟩ :=
    execAll_encryptCommands (p := d.OUT) hc' (hlen.symm ▸ hpos) (hlen.symm ▸ hfit')
  refine ⟨t, d, hencrypt, hd, ⟨t', d', hdecrypt, hd', ?roundTrip⟩, fun hreference hdefault => ?firstBits⟩
  case roundTrip => rw [hplain, hlen, hcipher, ← hcfg, xorseq_cancel hkey]
  case firstBits =>
    have hfour : 4 ≤ p.length := by rw [hdefault]; decide
    rw [hcipher, xorseq, List.take_zipWith, configuredKeystream_take_four hfour hreference, hdefault]
    rfl

end Sys2Proof.Machine

/-!
PROOFS. The statements of spec/60_exceptions.md: the fault a command word raises and its priority (R152 to R154,
R157), what a fault leaves (R158), and a step with nothing presented (R156). The fault of a word is a function of the
word and the core it reads, `wordError`; a faulting word leaves that core, so repeating it raises the same fault.
-/

namespace Sys2Proof.Machine

/-! ### The fault of a command and of a word (R152 to R154, R157) -/

/-- Which commands raise which fault on a core. CRYPT 0 is not among those of LengthMismatch, since its count is
checked first (R157). IllegalCommand is no command's: it is raised by a word that decodes to none (R153). -/
theorem errorOf_eq_iff (i : Instr) (c : CoreState) :
    errorOf i c ≠ .illegalCommand ∧
    (errorOf i c = .badSteps ↔ i = .generate 0 ∨ i = .crypt 0) ∧
    (errorOf i c = .lengthMismatch ↔
      (i = .apply ∧ c.IN.length ≠ c.KS.length) ∨ ∃ n, n ≠ 0 ∧ i = .crypt n ∧ c.IN.length ≠ n) ∧
    (errorOf i c = .configError ↔
      (∃ r v, i = .lload r (.vector v) ∧ v.length ≠ c.cfg.W) ∨ ∃ r len data, i = .lload r (.unassembled len data)) := by
  cases i with
  | lload r v =>
    cases v with
    | vector v => by_cases hlen : v.length = c.cfg.W <;> simp [errorOf, hlen]
    | unassembled len data => simp [errorOf]
  | generate n => by_cases hzero : n = 0 <;> simp [errorOf, hzero]
  | apply => by_cases hlen : c.IN.length = c.KS.length <;> simp [errorOf, hlen]
  | crypt n =>
    by_cases hzero : n = 0
    · simp [errorOf, hzero]
    · by_cases hlen : c.IN.length = n <;> simp [errorOf, hzero, hlen, -Nat.exists_ne_zero]
  | _ => simp [errorOf]

/-- The fault a command word raises on a core, or OK: decoding comes before every other check (R157). -/
def wordError (w : CommandWord) (c : CoreState) : ErrorKind :=
  match decode w with
  | .ok i => errorOf i c
  | .error _ => .illegalCommand

theorem wordError_legal {w : CommandWord} {i : Instr} (hd : decode w = .ok i) (c : CoreState) :
    wordError w c = errorOf i c := by
  simp [wordError, hd]

theorem wordError_illegal {w : CommandWord} {e : Reject} (hd : decode w = .error e) (c : CoreState) :
    wordError w c = .illegalCommand := by
  simp [wordError, hd]

/-- Which words raise which fault on a core: a word that decodes raises that of its command. -/
theorem wordError_eq_iff (w : CommandWord) (c : CoreState) :
    (wordError w c = .illegalCommand ↔ ∀ i, decode w ≠ .ok i) ∧
    (wordError w c = .badSteps ↔ decode w = .ok (.generate 0) ∨ decode w = .ok (.crypt 0)) ∧
    (wordError w c = .lengthMismatch ↔
      (decode w = .ok .apply ∧ c.IN.length ≠ c.KS.length) ∨
      ∃ n, n ≠ 0 ∧ decode w = .ok (.crypt n) ∧ c.IN.length ≠ n) ∧
    (wordError w c = .configError ↔
      (∃ r v, decode w = .ok (.lload r (.vector v)) ∧ v.length ≠ c.cfg.W) ∨
      ∃ r len data, decode w = .ok (.lload r (.unassembled len data))) := by
  cases hd : decode w with
  | ok i =>
    obtain ⟨hlegal, hsteps, hlength, hconfig⟩ := errorOf_eq_iff i c
    simp only [wordError_legal hd, Except.ok.injEq]
    exact ⟨iff_of_false hlegal fun hnone => hnone i rfl, hsteps, hlength, hconfig⟩
  | error e => simp [wordError_illegal hd]

/-! ### What a command word answers (R153, R158) -/

/-- A word that faults on the core aborts there. -/
theorem runCommand_faults {w : CommandWord} {s : State} {c : CoreState} (hc : s.core = some c)
    (hfault : wordError w c ≠ .ok) : runCommand w s = .next (aborted s c (wordError w c)) := by
  cases hd : decode w with
  | ok i =>
    rw [wordError_legal hd] at hfault ⊢
    exact (runCommand_legal hc hd).trans (exec_faults hc hfault)
  | error e => rw [wordError_illegal hd, runCommand_illegal hc hd]

/-- On the core `c`, a word that answers a next state is a command that completed there, or it aborted there:
`exec_next_on` for a word. -/
theorem runCommand_next_on {w : CommandWord} {s t : State} {c : CoreState} (hc : s.core = some c)
    (h : runCommand w s = .next t) :
    (wordError w c = .ok ∧ ∃ i, decode w = .ok i ∧ t = completed s (effect i c) (resultValue i c)) ∨
      (wordError w c ≠ .ok ∧ t = aborted s c (wordError w c)) := by
  by_cases hok : wordError w c = .ok
  · cases hd : decode w with
    | ok i =>
      rw [runCommand_legal hc hd] at h
      obtain ⟨-, -, ht⟩ | ⟨hfault, -⟩ := exec_next_on hc h
      · exact .inl ⟨hok, i, rfl, ht⟩
      · exact absurd (wordError_legal hd c ▸ hok) hfault
    | error e => cases (wordError_illegal hd c).symm.trans hok
  · rw [runCommand_faults hc hok] at h
    cases h
    exact .inr ⟨hok, rfl⟩

/-- The response of a word carries its fault on the core; and a word whose response is not OK aborted, with the
response of R158. -/
theorem response_of_runCommand {w : CommandWord} {s t : State} {c : CoreState} {resp : Response} (hc : s.core = some c)
    (h : runCommand w s = .next t) (hout : t.outputs = s.outputs ++ [.response resp]) :
    resp.err = wordError w c ∧
      (resp.err ≠ .ok → t = aborted s c resp.err ∧ resp.warn = warnBits c ∧ resp.val = none) := by
  obtain ⟨hok, i, -, rfl⟩ | ⟨-, rfl⟩ := runCommand_next_on hc h
  · obtain rfl : (⟨.ok, warnBits (effect i c), resultValue i c⟩ : Response) = resp := by simpa using hout
    exact ⟨hok.symm, fun hfault => absurd rfl hfault⟩
  · obtain rfl : (⟨wordError w c, warnBits c, none⟩ : Response) = resp := by simpa using hout
    exact ⟨rfl, fun _ => ⟨rfl, rfl, rfl⟩⟩

/-! ### The statements -/

/-- Settles O43: the aborted state has the same core, so the word raises the same fault there. -/
theorem faultLeavesTheStateUntouched : Obligations.FaultLeavesTheStateUntouched := by
  intro w s t c resp hc h hout hfault
  obtain ⟨herr, haborted⟩ := response_of_runCommand hc h hout
  obtain ⟨rfl, hwarn, hval⟩ := haborted hfault
  have hagain := runCommand_faults (s := aborted s c resp.err) hc (herr ▸ hfault)
  exact ⟨rfl, hwarn, hval, herr ▸ hagain⟩

/-- Settles O44: the response's fault is that of the word on the core. -/
theorem faultsAreRaisedExactlyAsStated : Obligations.FaultsAreRaisedExactlyAsStated := by
  intro w s t c resp hc h hout
  obtain ⟨herr, haborted⟩ := response_of_runCommand hc h hout
  obtain ⟨hillegal, hsteps, hlength, hconfig⟩ := wordError_eq_iff w c
  rw [← herr] at hillegal hsteps hlength hconfig
  refine ⟨hillegal, hsteps, hlength, hconfig, fun hfault => ?unchanged⟩
  case unchanged =>
    obtain ⟨rfl, hwarn, -⟩ := haborted hfault
    exact ⟨hc, hwarn⟩

/-- Settles O50. -/
theorem idleStepChangesNothing : Obligations.IdleStepChangesNothing := fun _ => step_waiting

end Sys2Proof.Machine

/-!
PROOFS. The statements of spec/70_reset_and_hazards.md: failed construction and the unbuilt core (R181), the keystream
of a core with an all-zero register (R188), and that a built core with unbounded buffers never stops (R193). For the
last, every action such a core takes leaves a built core and appends one output (`Answers`); a run repeats this.
-/

namespace Sys2Proof.Machine

/-! ### The unbuilt core (R181) -/

/-- Settles O47. -/
theorem failedConstructionLeavesNoMachine : Obligations.FailedConstructionLeavesNoMachine := fun s =>
  ⟨fun _ hbad => constructEvent_failed hbad s, fun hc => ⟨fun i => exec_unbuilt i hc, runCommand_unbuilt hc⟩⟩

/-! ### All-zero registers (R188) -/

/-- An all-zero register gives 0 at every step (40_lfsr.md R87). -/
theorem outputAt_replicate_false (T : Bits) {n : Nat} (h : 1 ≤ n) (k : Nat) :
    outputAt T (List.replicate n false) k = false := by
  rw [outputAt, stepsFrom_of_nxt_eq (nxt_replicate_false T h), outbit_replicate_false]

/-- The raw output of a register in a keystream run is its output sequence (10_state.md R28). -/
theorem rawOutputs_keystream (n : Nat) (c : CoreState) (r : Reg) :
    rawOutputs (keystream n c) r = (List.range n).map (outputAt (c.cfg.T.get r) (c.S.get r)) := by
  rw [rawOutputs, keystream_TR, List.map_map]
  rfl

/-- A keystream bit is the one that the raw output of the control at its place selects. -/
theorem keystream_KS_of_control {n k : Nat} {c : CoreState} {b : Bit}
    (h : (rawOutputs (keystream n c) .ct)[k]? = some b) :
    (keystream n c).KS[k]? =
      some (combineBits (outputAt c.cfg.T.g0 c.S.g0 k) (outputAt c.cfg.T.g1 c.S.g1 k) b) := by
  rw [rawOutputs_keystream, List.getElem?_map, Option.map_eq_some_iff] at h
  obtain ⟨j, hj, rfl⟩ := h
  obtain ⟨hk, rfl⟩ : k < n ∧ k = j := by simpa [List.getElem?_eq_some_iff] using hj
  exact keystream_KS_getElem? hk c

/-- Settles O29: an all-zero control selects G0 at every place, and an all-zero generator gives 0 where it is
selected. -/
theorem allZeroRegisterShapesTheKeystream : Obligations.AllZeroRegisterShapesTheKeystream := by
  intro s c n hc hinv hpos hfit
  have hsilent (T : Bits) (k : Nat) : outputAt T (List.replicate c.cfg.W false) k = false :=
    outputAt_replicate_false T hinv.width_pos k
  refine ⟨_, keystream n c, exec_generate hc hpos hfit, rfl, fun hzero => ?control, fun hzero k hselects => ?g0,
    fun hzero k hselects => ?g1⟩
  case control =>
    rw [keystream_KS, rawOutputs_keystream, hzero]
    refine List.map_congr_left fun k _ => ?_
    rw [hsilent, combineBits_control_false]
    rfl
  case g0 => rw [keystream_KS_of_control hselects, combineBits_control_false, hzero, hsilent]
  case g1 => rw [keystream_KS_of_control hselects, combineBits_control_true, hzero, hsilent]

/-! ### A built core answers every action (R193) -/

/-- The action taken in `s` was answered by `t`: the core is built, one output was appended, and neither what waits at
the port nor the parameters changed. -/
structure Answers (s t : State) : Prop where
  built : t.core.isSome = true
  port : t.port = s.port
  params : t.params = s.params
  outputs_length : t.outputs.length = s.outputs.length + 1

theorem answers_completed (s : State) (c : CoreState) (val : Option Value) : Answers s (completed s c val) :=
  ⟨rfl, rfl, rfl, by simp⟩

theorem answers_aborted {s : State} {c : CoreState} (hc : s.core = some c) (e : ErrorKind) :
    Answers s (aborted s c e) :=
  ⟨Option.isSome_of_eq_some hc, rfl, rfl, by simp⟩

/-- Unbounded buffers hold any length (20_memory.md R48). -/
theorem fitsCapacity_unbounded {p : Params} (h : p.bufCap = none) (n : Nat) : fitsCapacity p n = true := by
  simp [fitsCapacity, h]

/-- With room for every buffer a command completes or aborts. -/
theorem exec_answers (i : Instr) {s : State} {c : CoreState} (hc : s.core = some c) (hcap : s.params.bufCap = none) :
    ∃ t, exec i s = .next t ∧ Answers s t := by
  by_cases hok : errorOf i c = .ok
  · exact ⟨_, exec_completes hc hok (fitsCapacity_unbounded hcap _), answers_completed s _ _⟩
  · exact ⟨_, exec_faults hc hok, answers_aborted hc _⟩

theorem runCommand_answers (w : CommandWord) {s : State} {c : CoreState} (hc : s.core = some c)
    (hcap : s.params.bufCap = none) : ∃ t, runCommand w s = .next t ∧ Answers s t := by
  cases hd : decode w with
  | ok i =>
    rw [runCommand_legal hc hd]
    exact exec_answers i hc hcap
  | error e => exact ⟨_, runCommand_illegal hc hd, answers_aborted hc _⟩

theorem constructEvent_answers {raw : RawConfig} (hcfg : cfgOk raw = true) (hwidth : raw.width ≤ 16) (s : State) :
    ∃ t, constructEvent raw s = .next t ∧ Answers s t :=
  ⟨_, constructEvent_built hcfg hwidth s, rfl, rfl, rfl, by simp⟩

/-- A step of a built core takes the first action presented and answers it. -/
theorem step_answers {s : State} {c : CoreState} {a : HostAction} {rest : List HostAction} (hc : s.core = some c)
    (hcap : s.params.bufCap = none) (hgood : onlyGoodConstructions s.port) (hp : s.port = a :: rest) :
    ∃ t, step s = .next t ∧ Answers { s with port := rest } t := by
  cases a with
  | command w =>
    rw [step_command hp]
    exact runCommand_answers w (s := { s with port := rest }) hc hcap
  | construct raw =>
    obtain ⟨hcfg, hwidth⟩ := hgood raw (hp ▸ List.mem_cons_self)
    rw [step_construct hp]
    exact constructEvent_answers hcfg hwidth _

/-- Settles O52, by induction on the number of steps: while something is presented a step answers it, and after that
the core waits. -/
theorem builtCoreNeverStops : Obligations.BuiltCoreNeverStops := by
  intro k
  induction k with
  | zero => exact fun s c hc _ _ => ⟨s, rfl, Option.isSome_of_eq_some hc, rfl, by simp⟩
  | succ k ih =>
    intro s c hc hcap hgood
    cases hp : s.port with
    | nil =>
      obtain ⟨t, hrun, hbuilt, hport, houtputs⟩ := ih s c hc hcap hgood
      exact ⟨t, (run_of_next (step_waiting hp)).trans hrun, hbuilt, by simpa [hp] using hport,
        by simpa [hp] using houtputs⟩
    | cons a rest =>
      obtain ⟨u, hstep, hanswers⟩ := step_answers hc hcap hgood hp
      obtain ⟨d, hd⟩ := Option.isSome_iff_exists.mp hanswers.built
      have hport : u.port = rest := hanswers.port
      have hone : u.outputs.length = s.outputs.length + 1 := hanswers.outputs_length
      have hrest : onlyGoodConstructions u.port := fun raw hraw =>
        hgood raw (hp ▸ List.mem_cons_of_mem a (hport ▸ hraw))
      obtain ⟨t, hrun, hbuilt, hdrop, houtputs⟩ := ih u d hd (hanswers.params.symm ▸ hcap) hrest
      refine ⟨t, (run_of_next hstep).trans hrun, hbuilt, by rw [hdrop, hport, List.drop_succ_cons], ?outputs⟩
      case outputs =>
        rw [houtputs, hone, hport, List.length_cons]
        omega

end Sys2Proof.Machine
